-- ==== Sys2Proof/Word.lean ====
section
/-! DEFINITION. The plain types of the model: bytes, byte strings, fixed strings of bytes, the bus address
(spec/00_scope.md rules R7, R8, R9). No operation is defined here; those stand in Machine/Bytes.lean. -/

namespace Sys2Proof

/-- A byte, 0 to 255, unsigned (spec/00_scope.md rule R8). DATA_W = 8 (rule R7). -/
abbrev Byte := BitVec 8

/-- A byte string: a finite sequence of bytes, the first at index 0 (spec/00_scope.md rule R9). -/
abbrev Bytes := List Byte

/-- Exactly 16 bytes: a key half, an IV, a cipher block (spec/00_scope.md rule R6: SK_LEN, EK_LEN, IV_LEN, BLOCK). -/
abbrev Bytes16 := Vector Byte 16

/-- Exactly 8 bytes: a timestamp, most significant byte first (spec/00_scope.md rule R6: TS_LEN). -/
abbrev Bytes8 := Vector Byte 8

/-- A 32-bit word of the hash (spec/48_primitives_aes_sha256.md rule R225). -/
abbrev Word32 := BitVec 32

/-- A host bus address: ADDR_W = 18 bits (spec/00_scope.md rule R7, spec/20_memory.md rule R64). -/
abbrev BusAddr := BitVec 18

end Sys2Proof
end

