-- ==== Sys2Proof/Syntax.lean ====
section
/-! DEFINITION. The commands of FTC: one constructor for each row of the opcode table (spec/30_encoding.md rule R94), and the
fields of a raw command byte, format C (rule R90). A command byte that is no row of the table is not an instruction: the
decoder refuses it by name and the machine ends it with IllegalCommand (rule R95). -/

namespace Sys2Proof

/-- The legal commands (spec/30_encoding.md rule R94). Operands are never in the command but for ENC's two flags
(rules R90, R93). -/
inductive Instr where
  /-- KEYLD.RAW: load a key of 32 raw bytes (spec/42_key_load.md rule R145). -/
  | keyldRaw
  /-- KEYLD.B64: load a key given as base64url text (spec/42_key_load.md rule R146). -/
  | keyldB64
  /-- ENC: make a token (spec/43_token_encode.md rule R155). `ivsrc`: 0 = IV from the rng port, 1 = from IV and IVLEN.
  `tssrc`: 0 = timestamp from the now port, 1 = from TS (spec/30_encoding.md rule R93). -/
  | enc (ivsrc tssrc : Bool)
  /-- DEC: open a token (spec/44_token_decode.md rule R165). -/
  | dec
  /-- B64E: encode IBUF as base64url (spec/45_base64url.md rule R183). -/
  | b64e
  /-- B64D: decode base64url in IBUF (spec/45_base64url.md rule R184). -/
  | b64d
  /-- CTEQ: compare two byte strings in IBUF (spec/46_ct_compare.md rule R196). -/
  | cteq
  /-- SRST: soft reset (spec/47_control.md rule R205). -/
  | srst
deriving DecidableEq, Repr

/-- The fields of a command byte, format C (spec/30_encoding.md rule R90): any byte has these, legal or not. -/
structure FormatC where
  /-- Z, bits 7:6, must be 0b00. -/
  z : BitVec 2
  /-- F1, bit 5. -/
  f1 : Bool
  /-- F0, bit 4. -/
  f0 : Bool
  /-- OP, bits 3:0. -/
  op : BitVec 4
deriving DecidableEq, Repr

end Sys2Proof
end

