-- ==== Sys2Proof/WellFormed.lean ====
section
/-! DEFINITION. Which raw commands are well formed (spec/30_encoding.md rules R90, R91, R93, R95) and that every instruction of
the syntax is. -/

namespace Sys2Proof

/-- OP selects an operation: it is not one of the reserved values 0x0, 0x7 to 0xE (spec/30_encoding.md rule R91). -/
def FormatC.opLegal (f : FormatC) : Bool := f.op ∈ [0x1#4, 0x2#4, 0x3#4, 0x4#4, 0x5#4, 0x6#4, 0xF#4]

/-- The flags that must be 0 for this OP are 0: F0 is free for KEYLD and ENC, F1 for ENC only (spec/30_encoding.md rule R93). -/
def FormatC.flagsLegal (f : FormatC) : Bool :=
  (!f.f0 || f.op == 0x1#4 || f.op == 0x2#4) && (!f.f1 || f.op == 0x2#4)

/-- A legal command byte: Z is 0, OP is not reserved, and no must-be-zero flag is set (spec/30_encoding.md rule R95 lists
exactly these three ways to be illegal). -/
def FormatC.wellFormed (f : FormatC) : Bool := f.z == 0#2 && f.opLegal && f.flagsLegal

/-- Well-formedness of an instruction, constructor by constructor. The only operands are ENC's two one-bit selectors, and each
admits both values (spec/30_encoding.md rule R93), so there is nothing left to check: every term of `Instr` is well formed. -/
def Instr.wellFormed : Instr → Bool
  | .keyldRaw => true
  | .keyldB64 => true
  | .enc _ _ => true
  | .dec => true
  | .b64e => true
  | .b64d => true
  | .cteq => true
  | .srst => true

end Sys2Proof
end

