-- ==== Sys2Proof/Decode.lean ====
section
/-! DEFINITION. Decoding a command byte (spec/30_encoding.md rules R90, R92, R94) and encoding a command. The decoder is total:
it answers the instruction or names what is wrong with the byte (rule R95). -/

namespace Sys2Proof

/-- The three ways in which a byte is no legal command (spec/30_encoding.md rule R95). All of them end the command with
IllegalCommand. -/
inductive Illegal where
  /-- Z ≠ 0. -/
  | zNonzero
  /-- OP is 0x0 or 0x7 to 0xE. -/
  | opReserved
  /-- A flag that must be 0 for this OP is 1. -/
  | flagSet
deriving DecidableEq, Repr

/-- The fields of a command byte: bits 7:6, 5, 4 and 3:0 (spec/30_encoding.md rule R90). -/
def formatOf (c : Byte) : FormatC :=
  { z := c.extractLsb' 6 2, f1 := c.getLsbD 5, f0 := c.getLsbD 4, op := c.extractLsb' 0 4 }

/-- The command byte with these fields (spec/30_encoding.md rule R90). -/
def byteOf (f : FormatC) : Byte := f.z ++ BitVec.ofBool f.f1 ++ BitVec.ofBool f.f0 ++ f.op

/-- `Decode` on the fields, in the order of spec/30_encoding.md rule R92. -/
def decodeFormat (f : FormatC) : Except Illegal Instr :=
  if f.z ≠ 0#2 then .error .zNonzero
  else if f.op = 0x1#4 then
    if f.f1 then .error .flagSet else if f.f0 then .ok .keyldB64 else .ok .keyldRaw
  else if f.op = 0x2#4 then .ok (.enc f.f0 f.f1)
  else if f.op = 0x3#4 then if f.f0 || f.f1 then .error .flagSet else .ok .dec
  else if f.op = 0x4#4 then if f.f0 || f.f1 then .error .flagSet else .ok .b64e
  else if f.op = 0x5#4 then if f.f0 || f.f1 then .error .flagSet else .ok .b64d
  else if f.op = 0x6#4 then if f.f0 || f.f1 then .error .flagSet else .ok .cteq
  else if f.op = 0xF#4 then if f.f0 || f.f1 then .error .flagSet else .ok .srst
  else .error .opReserved

/-- `Decode(c)` of spec/30_encoding.md rule R92: total on the 256 bytes. -/
def decode (c : Byte) : Except Illegal Instr := decodeFormat (formatOf c)

/-- The fields that encode an instruction (spec/30_encoding.md rules R91, R93, R94). -/
def formatFor : Instr → FormatC
  | .keyldRaw => { z := 0, f1 := false, f0 := false, op := 0x1 }
  | .keyldB64 => { z := 0, f1 := false, f0 := true, op := 0x1 }
  | .enc ivsrc tssrc => { z := 0, f1 := tssrc, f0 := ivsrc, op := 0x2 }
  | .dec => { z := 0, f1 := false, f0 := false, op := 0x3 }
  | .b64e => { z := 0, f1 := false, f0 := false, op := 0x4 }
  | .b64d => { z := 0, f1 := false, f0 := false, op := 0x5 }
  | .cteq => { z := 0, f1 := false, f0 := false, op := 0x6 }
  | .srst => { z := 0, f1 := false, f0 := false, op := 0xF }

/-- The encoder: the one byte of an instruction (spec/30_encoding.md rules R90, R94). -/
def encode (i : Instr) : Byte := byteOf (formatFor i)

/-- The first byte of an instruction's bits as spec/opcode_table.json numbers them: bits 7 to 0. A command is exactly one byte
(spec/30_encoding.md rules R90, R97), so whatever stands above bit 7 belongs to no instruction. -/
def firstByte (_nbits w : Nat) : Byte := BitVec.ofNat 8 w

/-- The instruction the decoder reads from an instruction's bits (the opcode table's numbering); none where it refuses. -/
def decodeTableWord (nbits w : Nat) : Option Instr :=
  match decode (firstByte nbits w) with
  | .ok i => some i
  | .error _ => none

end Sys2Proof
end

