-- ==== Sys2Proof/Machine/Bytes.lean ====
section
/-! DEFINITION. The byte-string operations of the spec's notation (spec/00_scope.md rules R9, R10): slices,
bytewise xor, repetition, big-endian conversion, and the fixed-length strings the registers hold. -/

namespace Sys2Proof.Machine

/-- `s[i..j)` of spec/00_scope.md rule R9, for `0 ≤ i ≤ j ≤ len(s)`. Outside that range the slice is what of it the string has:
DESIGN CHOICE (log entry 15). -/
def slice (s : Bytes) (i j : Nat) : Bytes := (s.drop i).take (j - i)

/-- `xorb(a, b)` of spec/00_scope.md rule R9, for strings of equal length. Of strings of unequal length it is the xor cut to the
shorter one: DESIGN CHOICE (log entry 15). -/
def xorb (a b : Bytes) : Bytes := List.zipWith (fun x y => x ^^^ y) a b

/-- `rep(b, n)` of spec/00_scope.md rule R9: `n` copies of the byte `b`. -/
def rep (b : Byte) (n : Nat) : Bytes := List.replicate n b

/-- `be(n, v)` of spec/00_scope.md rule R10: byte `i` is `(v div 2^(8(n-1-i))) mod 256`, so the most significant
byte comes first. The rule asks for `0 ≤ v < 2^(8n)`; of a greater `v` it is the low `n` bytes: DESIGN CHOICE (log entry 15). -/
def be (n v : Nat) : Bytes :=
  (List.range n).map fun i => BitVec.ofNat 8 (v / 2 ^ (8 * (n - 1 - i)) % 256)

/-- `unbe(s)` of spec/00_scope.md rule R10, the inverse of `be`. -/
def unbe (s : Bytes) : Nat := s.foldl (fun acc b => acc * 256 + b.toNat) 0

/-- The fixed string of `n` bytes that a byte string of length `n` is. A shorter string is completed with 0x00
and a longer one cut; no rule of the spec asks for either, the spec only writes strings of the right length: DESIGN CHOICE (log
entry 15). -/
def toVec (n : Nat) (s : Bytes) : Vector Byte n :=
  ⟨(s.take n ++ rep 0 (n - s.length)).toArray, by simp [rep]; omega⟩

/-- `n` bytes of 0x00: the reset value of a byte-string register (spec/10_state.md rule R46). -/
def zeroVec (n : Nat) : Vector Byte n := Vector.replicate n 0

/-- `be(8, now_sec mod 2^64)` of spec/40_token_framer.md rule R117: the two's-complement bit pattern of a 64-bit
second count, unchanged, as the 8 bytes of a timestamp. -/
def be8 (v : BitVec 64) : Bytes8 := toVec 8 (be 8 v.toNat)

end Sys2Proof.Machine
end

