-- ==== Sys2Proof/Config.lean ====
section
/-! DEFINITION. What is fixed for one instance of the block, and the free values: the parameter BUF_MAX
(spec/00_scope.md rule R7), the draws of the collaborator ports (spec/20_memory.md rules R75 to R78) and what the
working registers hold after a command (spec/10_state.md rule R43). Every constant here is opaque and has no body, so no
proof can know its value. -/

namespace Sys2Proof

/-- What the collaborator ports answer in one ENC or DEC command: the draws of spec/20_memory.md rules R75 to R78. No rule
constrains any of them (spec/93_implementation_defined.md U2 to U5). -/
structure PortAnswers where
  /-- `now_sec`: whole seconds of Unix time, 64-bit two's complement (rule R75). -/
  nowSec : BitVec 64
  /-- `now_frac`: the fraction of the second in units of 2^-32 s; FTC discards it (rule R75). -/
  nowFrac : BitVec 32
  /-- `rng_len`: how many bytes the randomness source delivered (rule R76). -/
  rngLen : Byte
  /-- `rng_bytes` (rule R76). -/
  rngBytes : Bytes16
  /-- `aes_fault`: 0x00 means no fault (rule R77). -/
  aesFault : Byte
  /-- `mac_fault`: 0x00 means no fault (rule R78). -/
  macFault : Byte
deriving DecidableEq, Repr, Inhabited

/-- The working registers of spec/10_state.md rule R43. The host cannot address them, and nothing in the model reads them. -/
structure Working where
  /-- TBUF, BUF_MAX bytes: the binary token. Bytes past the end of the list are 0x00. -/
  tbuf : Bytes
  /-- CHAIN: the CBC chaining block. -/
  chain : Bytes16
  /-- TAGC: the computed HMAC tag. -/
  tagc : Vector Byte 32
  /-- ACC: the comparator's accumulator. -/
  acc : Byte
  /-- SR: the base64 group register. -/
  sr : BitVec 24
  /-- A length counter ("up to 20 bits"). -/
  lenCtr : BitVec 20
  /-- An index counter ("up to 20 bits"). -/
  idxCtr : BitVec 20
deriving DecidableEq, Repr, Inhabited

/-- How far BUF_MAX lies above its least value 128; anything that keeps it at most 65535. Open parameter of
spec/00_scope.md rule R7 (log entry 4). -/
opaque Config.bufMaxOver : Fin 65408

/-- The free draws: what the ports answer in the command whose completion has index `n`, where nothing is placed in
`State.answers` (spec/93_implementation_defined.md U2 to U5; log entry 5). -/
opaque Config.portAnswers : Nat → PortAnswers

/-- What the working registers hold after the completion of index `n` (spec/93_implementation_defined.md U13: any value;
log entry 6). -/
opaque Config.workLeft : Nat → Working

/-- BUF_MAX of the instance that State.reset describes: a natural number with 128 ≤ BUF_MAX ≤ 65535 (spec/00_scope.md
rule R7). -/
def Config.bufMax : Nat := Config.bufMaxOver.val + 128

end Sys2Proof
end

