-- ==== Sys2Proof/Machine/State.lean ====
section
/-! DEFINITION. The state of FTC (spec/10_state.md rule R20) with what the model needs of its surroundings (log entries 1, 4, 5,
8, 9, 10), the reasons a step can stop, and the state after reset (spec/10_state.md rule R46). -/

namespace Sys2Proof.Machine

/-- A byte buffer as (index, byte) pairs. Canonical form: indices strictly rising and no entry equal to what an unlisted index
reads as (`Memory.wf` in Machine/Ops.lean). -/
structure Memory where
  cells : List Host.Cell
deriving DecidableEq, Repr, Inhabited

/-- PHASE: IDLE and the phase names of the commands' rules (spec/10_state.md rule R34; the names are those of files 42 to 47).
An enumeration, no rule gives it a number. -/
inductive Phase where
  | idle
  | kAdmit | kDecode | kLength | kSplit
  | eAdmit | eTime | eIv | eCipher | eFrame | eMac | eConcat | eB64
  | dAdmit | d1TransportDecode | d2LengthValidation | d3FieldSplit | d4VersionCheck | d5Decrypt | d6Authenticate | d7Return
  | bAdmit | bEncode | bDecode
  | cAdmit | cCompare
  | sReset
  | xIllegal
deriving DecidableEq, Repr

/-- The error codes of spec/60_exceptions.md rule R240 (spec/93_implementation_defined.md X6: a model's ERR may be this
enumeration). Their numbers are `ErrCode.code` in Machine/Flags.lean. -/
inductive ErrCode where
  | ok | invalidKeyFormat | invalidKeyLength | invalidIV | cipherError | authError | tokenDecodingFailed | invalidTokenFormat
  | unknownVersion | illegalCommand | noKey | keyLocked | overflow | badLength | base64DecodeFailed
deriving DecidableEq, Repr

/-- What arrives from outside in one step (spec/00_scope.md rule R13, log entry 1). -/
inductive Arrival where
  /-- `HostRead(a)` (spec/20_memory.md rule R64). -/
  | read (a : BusAddr)
  /-- `HostWrite(a, b)` (spec/20_memory.md rule R64). -/
  | write (a : BusAddr) (b : Byte)
  /-- The reset pin takes this level: true asserts, false releases (spec/70_reset_and_hazards.md rule R280). -/
  | rst (level : Bool)
  /-- Nothing arrives: the sequencer moves (log entry 3). -/
  | quiet
deriving DecidableEq, Repr

/-- The direction of an AES port request (spec/20_memory.md rule R77). -/
inductive AesDir where
  | encrypt | decrypt
deriving DecidableEq, Repr

/-- What the sequencer asks of a collaborator port (spec/20_memory.md rules R75 to R78). -/
inductive PortRequest where
  /-- The time (rule R75). -/
  | now
  /-- `n` random bytes (rule R76). -/
  | rng (n : Nat)
  /-- One block through AES (rule R77). -/
  | aes (dir : AesDir) (key block : Bytes)
  /-- The hash of a message (rule R78). -/
  | sha (m : Bytes)
deriving DecidableEq, Repr

/-- The state. First the elements of spec/10_state.md rule R20 under the names it gives them, then the parameter BUF_MAX and the
surroundings of the block, which are not state of FTC (rule R45) and which no reset of the block touches. -/
structure State where
  /-- SK, the signing key (rule R21). -/
  sk : Bytes16
  /-- EK, the encryption key (rule R22). -/
  ek : Bytes16
  /-- KEY_VALID (rule R23). -/
  keyValid : Bool
  /-- IBUF (rule R31). -/
  ibuf : Memory
  /-- ILEN (rule R25). -/
  ilen : BitVec 16
  /-- ALEN (rule R27). -/
  alen : BitVec 16
  /-- IV (rule R28). -/
  iv : Bytes16
  /-- IVLEN (rule R28). -/
  ivlen : Byte
  /-- TS (rule R29). -/
  ts : Bytes8
  /-- OBUF (rule R32). -/
  obuf : Memory
  /-- OLEN (rule R26). -/
  olen : BitVec 16
  /-- TS_OUT (rule R30). -/
  tsOut : Bytes8
  /-- CMD (rule R33). -/
  cmd : Byte
  /-- PHASE (rule R34). -/
  phase : Phase
  /-- BUSY (rule R38). -/
  busy : Bool
  /-- DONE (rule R39), also the level of the `done` output (spec/60_exceptions.md rule R255). -/
  done : Bool
  /-- HMAC_OK (rule R41). -/
  hmacOk : Bool
  /-- EQ (rule R42). -/
  eq : Bool
  /-- ERR (rule R36). -/
  err : ErrCode
  /-- ERRINFO (rule R37). -/
  errInfo : Byte
  /-- The working registers (rule R43). Nothing reads them. -/
  work : Working
  /-- BUF_MAX, the parameter of this instance (spec/00_scope.md rule R7; log entry 4). No step changes it. -/
  bufMax : Nat
  /-- The level of the `rst` pin (spec/20_memory.md rule R79; log entry 10). -/
  rst : Bool
  /-- What is still to come from outside, in the order of arrival (log entry 1). -/
  arrivals : List Arrival
  /-- What the host's reads returned so far, oldest first: (address, byte) (log entry 9). -/
  reads : List (BusAddr × Byte)
  /-- The ports' answers to the coming ENC and DEC commands, one element a command; where it is empty the answers are the free
  values `Config.portAnswers` (log entry 5). -/
  answers : List PortAnswers
  /-- What the sequencer asked of the ports so far, oldest first (log entry 8). -/
  requests : List PortRequest
  /-- How many commands have completed: the index at which free values are read (log entries 5, 6). -/
  completed : Nat
deriving DecidableEq, Repr

/-- Why a step stops with a fault: never. Every bus operation at every address, in every state, and every command byte has a
defined result (spec/93_implementation_defined.md, end of part 1), so nothing raises a fault and the type has no constructor.
Safe: no behaviour is cut off. -/
inductive Fault where
deriving DecidableEq, Repr

/-- Why a step answers that it has no meaning. -/
inductive Refusal where
  /-- The instruction of this mnemonic has no meaning in the model yet. Raised only by an arm of `exec` in
  Machine/Dispatch.lean; no arm raises it now. Safe: the model stops where the hardware goes on. -/
  | notModelled (mnemonic : String)
deriving DecidableEq, Repr

/-- The reset value of the working registers: every one is zero (spec/70_reset_and_hazards.md rule R281). -/
def Working.reset : Working :=
  { tbuf := [], chain := Vector.replicate 16 0, tagc := Vector.replicate 32 0, acc := 0, sr := 0, lenCtr := 0, idxCtr := 0 }

/-- The machine right after the release of reset: every element of rule R20 at the value of spec/10_state.md rule R46 and
spec/70_reset_and_hazards.md rule R281. The surroundings: BUF_MAX is the open parameter, `rst` is released, nothing has
arrived, nothing is placed at the ports (log entries 1, 4, 5, 8, 9, 10). -/
def State.reset : State :=
  { sk := Vector.replicate 16 0
    ek := Vector.replicate 16 0
    keyValid := false
    ibuf := ⟨[]⟩
    ilen := 0
    alen := 0
    iv := Vector.replicate 16 0
    ivlen := 0
    ts := Vector.replicate 8 0
    obuf := ⟨[]⟩
    olen := 0
    tsOut := Vector.replicate 8 0
    cmd := 0
    phase := .idle
    busy := false
    done := false
    hmacOk := false
    eq := false
    err := .ok
    errInfo := 0
    work := Working.reset
    bufMax := Config.bufMax
    rst := false
    arrivals := []
    reads := []
    answers := []
    requests := []
    completed := 0 }

end Sys2Proof.Machine
end

