-- ==== Sys2Proof/Machine/Ops.lean ====
section
/-! DEFINITION. The operations every command shares: the buffers (spec/00_scope.md rule R11, MemRead and MemWrite), accept
(spec/60_exceptions.md rule R247), complete with success (rule R249), complete with an error, the block's analogue of taking
an exception (rule R250), reset (spec/10_state.md rule R46), the port draws, and the run of a command's phases (rule R251). -/

namespace Sys2Proof.Machine

/-! ### Buffers -/

/-- What an index that the list does not name reads as: 0x00, the reset content of both buffers (spec/10_state.md rule R46). -/
def Memory.unlisted : Byte := 0x00

/-- The empty list: every byte 0x00. -/
def Memory.cleared : Memory := ⟨[]⟩

/-- Canonical form: indices strictly rising, no entry equal to what an unlisted index reads as. -/
abbrev Memory.wf (m : Memory) : Prop :=
  m.cells.Pairwise (fun x y => x.1 < y.1) ∧ ∀ c ∈ m.cells, c.2 ≠ Memory.unlisted

/-- The byte at index `i` of a list of cells. -/
def readCells : List Host.Cell → Nat → Byte
  | [], _ => Memory.unlisted
  | (j, b) :: rest, i => if j = i then b else readCells rest i

/-- `space[i]`: one byte of a buffer. -/
def Memory.read (m : Memory) (i : Nat) : Byte := readCells m.cells i

/-- `space[i] <- b` on a list of cells; writing 0x00 takes the entry out. -/
def writeCells : List Host.Cell → Nat → Byte → List Host.Cell
  | [], i, b => if b = Memory.unlisted then [] else [(i, b)]
  | (j, c) :: rest, i, b =>
    if i < j then (if b = Memory.unlisted then (j, c) :: rest else (i, b) :: (j, c) :: rest)
    else if i = j then (if b = Memory.unlisted then rest else (i, b) :: rest)
    else (j, c) :: writeCells rest i b

/-- `space[i] <- b`. -/
def Memory.write (m : Memory) (i : Nat) (b : Byte) : Memory := ⟨writeCells m.cells i b⟩

/-- `MemRead(space, i, n)` (spec/00_scope.md rule R11): the bytes `space[i], …, space[i+n-1]`. The rule asks for
`i + n ≤ BUF_MAX`; past it a byte reads as what the list holds: DESIGN CHOICE (log entry 15). -/
def Memory.readN (m : Memory) (i n : Nat) : Bytes := (List.range n).map fun k => m.read (i + k)

/-- `MemWrite(space, i, s)` (spec/00_scope.md rule R11): for each `k < len(s)`, `space[i+k] <- s[k]`. -/
def Memory.writeN (m : Memory) (i : Nat) : Bytes → Memory
  | [] => m
  | b :: s => Memory.writeN (m.write i b) (i + 1) s

/-! ### Phases -/

/-- The phases of a command in their order (spec/10_state.md rule R34; files 42 to 47). There is no branch and no loop back. -/
def phasesOf : Instr → List Phase
  | .keyldRaw => [.kAdmit, .kLength, .kSplit]
  | .keyldB64 => [.kAdmit, .kDecode, .kLength, .kSplit]
  | .enc _ _ => [.eAdmit, .eTime, .eIv, .eCipher, .eFrame, .eMac, .eConcat, .eB64]
  | .dec => [.dAdmit, .d1TransportDecode, .d2LengthValidation, .d3FieldSplit, .d4VersionCheck, .d5Decrypt, .d6Authenticate,
      .d7Return]
  | .b64e => [.bAdmit, .bEncode]
  | .b64d => [.bAdmit, .bDecode]
  | .cteq => [.cAdmit, .cCompare]
  | .srst => [.sReset]

/-- The first phase of `Decode(c)` (spec/60_exceptions.md rule R247): X_ILLEGAL for an illegal byte. -/
def firstPhase (c : Byte) : Phase :=
  match decode c with
  | .ok i => (phasesOf i).headD .idle
  | .error _ => .xIllegal

/-! ### Accept, complete, reset -/

/-- Accept of the command byte `c` (spec/60_exceptions.md rule R247). It does not touch SK, EK, KEY_VALID, IBUF, ILEN, ALEN, IV,
IVLEN, TS. -/
def State.accept (s : State) (c : Byte) : State :=
  { s with
    cmd := c
    busy := true
    done := false
    err := .ok
    errInfo := 0
    hmacOk := false
    eq := false
    olen := 0
    obuf := Memory.cleared
    tsOut := zeroVec 8
    phase := firstPhase c }

/-- A raised error: its name, its payload (spec/00_scope.md rule R11, `raise`), and what the command had asked of the ports by
then. -/
structure Raise where
  err : ErrCode
  info : Byte
  asked : List PortRequest
deriving DecidableEq, Repr

/-- Complete with an error (spec/60_exceptions.md rule R250): ERR, ERRINFO, DONE, BUSY and PHASE, and nothing else. The working
registers are left with any value (log entry 6). -/
def State.raise (s : State) (e : Raise) : State :=
  { s with
    err := e.err
    errInfo := e.info
    done := true
    busy := false
    phase := .idle
    work := Config.workLeft s.completed
    requests := s.requests ++ e.asked
    completed := s.completed + 1 }

/-- The end of a complete step with success (spec/60_exceptions.md rule R249): DONE, BUSY, PHASE; ERR and ERRINFO stay. The
command's own writes come before it. `asked` is what it asked of the ports. -/
def State.finish (s : State) (asked : List PortRequest) : State :=
  { s with
    done := true
    busy := false
    phase := .idle
    work := Config.workLeft s.completed
    requests := s.requests ++ asked
    completed := s.completed + 1 }

/-- Every element of spec/10_state.md rule R20 takes its reset value (rule R46). The parameter and the surroundings stay. -/
def State.resetBlock (s : State) : State :=
  { State.reset with
    bufMax := s.bufMax
    rst := s.rst
    arrivals := s.arrivals
    reads := s.reads
    answers := s.answers
    requests := s.requests
    completed := s.completed }

/-- The result bytes and their count: `MemWrite(OBUF, 0, out); OLEN <- len(out)` (files 43 to 45). -/
def State.putOutput (s : State) (out : Bytes) : State :=
  { s with obuf := s.obuf.writeN 0 out, olen := BitVec.ofNat 16 out.length }

/-! ### Port draws -/

/-- The draws of the command that completes next (spec/20_memory.md rules R75 to R78): what the surroundings placed, or free
values (log entry 5). -/
def State.draws (s : State) : PortAnswers := s.answers.headD (Config.portAnswers s.completed)

/-- The draws of this command are used up: fresh ones at each command (spec/10_state.md rule R45). -/
def State.takeDraws (s : State) : State := { s with answers := s.answers.tail }

/-! ### The run of a command's phases -/

/-- The values a command in flight carries from phase to phase, under the names its rule gives them. It lives inside one complete
step only (spec/10_state.md rule R43). -/
structure Flight where
  /-- `raw`, `p` or `txt`: the input read by the admission phase; then what it decodes to. -/
  inp : Bytes
  ts : Bytes8
  iv : Bytes16
  ct : Bytes
  body : Bytes
  /-- `tag`: computed by ENC, taken from the token by DEC. -/
  tag : Bytes
  /-- `T`, the binary token. -/
  tok : Bytes
  ver : Byte
  /-- The output: `txt` of ENC and B64E, `p` of DEC, the bytes of B64D. -/
  out : Bytes
  /-- `ok` of DEC, the comparison of CTEQ. -/
  ok : Bool
  sk : Bytes16
  ek : Bytes16
  /-- What was asked of the ports so far. -/
  asked : List PortRequest
deriving DecidableEq, Repr

/-- Nothing done yet. -/
def Flight.start : Flight :=
  { inp := [], ts := zeroVec 8, iv := zeroVec 16, ct := [], body := [], tag := [], tok := [], ver := 0, out := [], ok := false
    sk := zeroVec 16, ek := zeroVec 16, asked := [] }

/-- `raise <err>(info)` in a phase. -/
def Flight.fail (f : Flight) (err : ErrCode) (info : Byte) : Except Raise Flight := .error ⟨err, info, f.asked⟩

/-- One phase of a command: its name and its work, which passes the values on or raises. -/
abbrev PhaseWork := Phase × (Flight → Except Raise Flight)

/-- The phases run in their order; the first failing one ends the command and later ones are not evaluated
(spec/60_exceptions.md rule R251). -/
def runPhases : List PhaseWork → Flight → Except Raise Flight
  | [], f => .ok f
  | (_, work) :: rest, f =>
    match work f with
    | .error e => .error e
    | .ok f' => runPhases rest f'

/-- The complete step of a command (spec/60_exceptions.md rules R249, R250): the phases run; then either the error is recorded,
or the command's own writes (`commit`) are made and the success is. -/
def State.complete (s : State) (phases : List PhaseWork) (commit : Flight → State → State) : State :=
  match runPhases phases Flight.start with
  | .error e => s.raise e
  | .ok f => (commit f s).finish f.asked

end Sys2Proof.Machine
end

