-- ==== Sys2Proof/Machine/Flags.lean ====
section
/-! DEFINITION. The status views: the error numbers (spec/60_exceptions.md rule R240), ERRF (spec/10_state.md rule R40), STATUS as
a byte (rule R35) and the `done` output (spec/60_exceptions.md rule R255). The flags a command sets (DONE, BUSY, HMAC_OK, EQ,
ERR) are written by the operations of Machine/Ops.lean and by the commands. -/

namespace Sys2Proof.Machine

/-- The error numbers of spec/60_exceptions.md rule R240. -/
def ErrCode.code : ErrCode → Byte
  | .ok => 0x00
  | .invalidKeyFormat => 0x01
  | .invalidKeyLength => 0x02
  | .invalidIV => 0x03
  | .cipherError => 0x04
  | .authError => 0x05
  | .tokenDecodingFailed => 0x06
  | .invalidTokenFormat => 0x07
  | .unknownVersion => 0x08
  | .illegalCommand => 0x10
  | .noKey => 0x11
  | .keyLocked => 0x12
  | .overflow => 0x13
  | .badLength => 0x14
  | .base64DecodeFailed => 0x15

/-- ERRF, STATUS bit 2: 1 exactly when ERR ≠ 0x00 (spec/10_state.md rule R40). -/
def State.errf (s : State) : Bool := s.err.code != 0x00

/-- STATUS as a byte (spec/10_state.md rule R35): bits 7:6 are 0, then EQ, HMAC_OK, KEY_VALID, ERRF, DONE, BUSY. -/
def State.statusByte (s : State) : Byte :=
  0#2 ++ BitVec.ofBool s.eq ++ BitVec.ofBool s.hmacOk ++ BitVec.ofBool s.keyValid ++ BitVec.ofBool s.errf
    ++ BitVec.ofBool s.done ++ BitVec.ofBool s.busy

/-- The `done` output pin: STATUS.DONE at every moment (spec/60_exceptions.md rule R255, spec/20_memory.md rule R79). -/
def State.donePin (s : State) : Bool := s.done

end Sys2Proof.Machine
end

