-- ==== Sys2Proof/Machine/Operands.lean ====
section
/-! DEFINITION. Where operands stand: the host's bus address map (spec/20_memory.md rules R65, R66) and the byte strings in IBUF that
the commands take (files 42 to 46). -/

namespace Sys2Proof.Machine

/-- What a bus address names (spec/20_memory.md rules R65, R66). -/
inductive Loc where
  | cmd | status | err | errInfo
  | ilenH | ilenL | olenH | olenL | alenH | alenL | ivlen
  | ts (i : Fin 8)
  | tsOut (i : Fin 8)
  | iv (i : Fin 16)
  | ibuf (i : Nat)
  | obuf (i : Nat)
  /-- Reserved: reads 0x00, writes are dropped (spec/20_memory.md rules R66 to R68, R70). -/
  | unmapped
deriving DecidableEq, Repr

/-- The first sixteen bytes of the register map (spec/20_memory.md rule R66): the control, status and length registers. -/
def locateControl : Nat → Loc
  | 0x00 => .cmd
  | 0x01 => .status
  | 0x02 => .err
  | 0x03 => .errInfo
  | 0x04 => .ilenH
  | 0x05 => .ilenL
  | 0x06 => .olenH
  | 0x07 => .olenL
  | 0x08 => .alenH
  | 0x09 => .alenL
  | 0x0A => .ivlen
  | _ => .unmapped

/-- The register map (spec/20_memory.md rule R66): `off` is `a[15:0]`. Behind the control registers stand TS, TS_OUT and IV. -/
def locateReg (off : Nat) : Loc :=
  if off < 0x10 then locateControl off
  else if h : off < 0x18 then .ts ⟨off - 0x10, by omega⟩
  else if h : off < 0x20 then .tsOut ⟨off - 0x18, by omega⟩
  else if h : off < 0x30 then .iv ⟨off - 0x20, by omega⟩
  else .unmapped

/-- The address map (spec/20_memory.md rule R65): the space is `a[17:16]`, the place in it `a[15:0]`. -/
def locate (bufMax : Nat) (a : BusAddr) : Loc :=
  let space := a.toNat / 0x10000
  let off := a.toNat % 0x10000
  if space = 0 then locateReg off
  else if space = 1 then (if off < bufMax then .ibuf off else .unmapped)
  else if space = 2 then (if off < bufMax then .obuf off else .unmapped)
  else .unmapped

/-- Bits 15:8 of a 16-bit register. -/
def highByte (v : BitVec 16) : Byte := v.extractLsb' 8 8

/-- Bits 7:0 of a 16-bit register. -/
def lowByte (v : BitVec 16) : Byte := v.extractLsb' 0 8

/-- A 16-bit register from its two bytes: `256·H + L` (spec/20_memory.md rule R66). -/
def fromBytes (hi lo : Byte) : BitVec 16 := hi ++ lo

/-- The input of a command: `IBUF[0..ILEN)` (spec/10_state.md rule R25). -/
def State.input (s : State) : Bytes := s.ibuf.readN 0 s.ilen.toNat

/-- Operand `a` of CTEQ: `IBUF[0..ALEN)` (spec/10_state.md rule R27). -/
def State.operandA (s : State) : Bytes := s.ibuf.readN 0 s.alen.toNat

/-- Operand `b` of CTEQ: `IBUF[ALEN..ILEN)` (spec/10_state.md rule R27). -/
def State.operandB (s : State) : Bytes := s.ibuf.readN s.alen.toNat (s.ilen.toNat - s.alen.toNat)

end Sys2Proof.Machine
end

