-- ==== Sys2Proof/Machine/Bus.lean ====
section
/-! DEFINITION. The host bus and the reset pin (spec/20_memory.md rules R64 to R71; spec/70_reset_and_hazards.md rules R280,
R282). -/

namespace Sys2Proof.Machine

/-- What a place holds (spec/20_memory.md rules R66, R67). -/
def State.readLoc (s : State) : Loc → Byte
  | .cmd => s.cmd
  | .status => s.statusByte
  | .err => s.err.code
  | .errInfo => s.errInfo
  | .ilenH => highByte s.ilen
  | .ilenL => lowByte s.ilen
  | .olenH => highByte s.olen
  | .olenL => lowByte s.olen
  | .alenH => highByte s.alen
  | .alenL => lowByte s.alen
  | .ivlen => s.ivlen
  | .ts i => s.ts[i]
  | .tsOut i => s.tsOut[i]
  | .iv i => s.iv[i]
  | .ibuf i => s.ibuf.read i
  | .obuf i => s.obuf.read i
  | .unmapped => 0x00

/-- The byte `HostRead(a)` returns (spec/20_memory.md rule R67). -/
def State.busByte (s : State) (a : BusAddr) : Byte := s.readLoc (locate s.bufMax a)

/-- `HostRead(a)`: the byte is returned to the host; no state of FTC changes (spec/20_memory.md rule R67). -/
def State.hostRead (s : State) (a : BusAddr) : State := { s with reads := s.reads ++ [(a, s.busByte a)] }

/-- A write that is not dropped, at a place (spec/20_memory.md rule R68): CMD accepts a command, a read/write byte takes the value,
everything else drops it. -/
def State.writeLoc (s : State) (b : Byte) : Loc → State
  | .cmd => s.accept b
  | .ilenH => { s with ilen := fromBytes b (lowByte s.ilen) }
  | .ilenL => { s with ilen := fromBytes (highByte s.ilen) b }
  | .alenH => { s with alen := fromBytes b (lowByte s.alen) }
  | .alenL => { s with alen := fromBytes (highByte s.alen) b }
  | .ivlen => { s with ivlen := b }
  | .ts i => { s with ts := s.ts.set i b }
  | .iv i => { s with iv := s.iv.set i b }
  | .ibuf i => { s with ibuf := s.ibuf.write i b }
  | .status => s
  | .err => s
  | .errInfo => s
  | .olenH => s
  | .olenL => s
  | .tsOut _ => s
  | .obuf _ => s
  | .unmapped => s

/-- `HostWrite(a, b)`: dropped while BUSY = 1 (spec/20_memory.md rule R71) and while `rst` is asserted
(spec/70_reset_and_hazards.md rule R280); else rule R68. -/
def State.hostWrite (s : State) (a : BusAddr) (b : Byte) : State :=
  if s.busy || s.rst then s else s.writeLoc b (locate s.bufMax a)

/-- The reset pin takes a level: asserted, it resets the block at once, a command in flight included
(spec/70_reset_and_hazards.md rules R280, R282); released, nothing else happens (rule R281). DESIGN CHOICE (log entry 22, unsafe):
rule R282 speaks of a collaborator call in progress and leaves open which requests an aborted command has made by then; the model
logs none and takes none of its draws. -/
def State.setRst (s : State) (level : Bool) : State :=
  if level then { s.resetBlock with rst := true } else { s with rst := false }

/-- While `rst` is asserted the block is held in the reset state (spec/70_reset_and_hazards.md rule R280). -/
def State.held (s : State) : State := if s.rst then s.resetBlock else s

end Sys2Proof.Machine
end

