-- ==== Sys2Proof/Machine/Compare.lean ====
section
/-! DEFINITION. The constant-time comparator (spec/46_ct_compare.md rule R195) and its command CTEQ (rule R196). -/

namespace Sys2Proof.Machine

/-- The accumulated `or` of the `xor` differences: ACC of spec/46_ct_compare.md rule R195, over every index. -/
def accumulate : Byte → Bytes → Bytes → Byte
  | acc, x :: a, y :: b => accumulate (acc ||| (x ^^^ y)) a b
  | acc, _, _ => acc

/-- `CtEq(a, b)` (spec/46_ct_compare.md rule R195). -/
def ctEq (a b : Bytes) : Bool :=
  if a.length ≠ b.length then false else accumulate 0x00 a b == 0x00

/-- C_ADMIT (spec/46_ct_compare.md rule R196). -/
def cAdmit (s : State) (f : Flight) : Except Raise Flight :=
  if s.bufMax < s.ilen.toNat then f.fail .badLength 0
  else if s.ilen.toNat < s.alen.toNat then f.fail .badLength 0
  else .ok f

/-- C_COMPARE (spec/46_ct_compare.md rule R196). -/
def cCompare (s : State) (f : Flight) : Except Raise Flight :=
  .ok { f with ok := ctEq s.operandA s.operandB }

/-- The phases of CTEQ. -/
def cteqPhases (s : State) : List PhaseWork := [(.cAdmit, cAdmit s), (.cCompare, cCompare s)]

/-- What CTEQ writes on success: `EQ <- (1 if CtEq(a, b) else 0)`. -/
def cteqCommit (f : Flight) (s : State) : State := { s with eq := f.ok }

/-- CTEQ: compare two byte strings held in the input buffer (spec/46_ct_compare.md rule R196). -/
def execCteq (s : State) : Host.Outcome State Fault Refusal := .next (s.complete (cteqPhases s) cteqCommit)

end Sys2Proof.Machine
end

