-- ==== Sys2Proof/Machine/Control.lean ====
section
/-! DEFINITION. SRST and the end of an illegal command byte (spec/47_control.md rules R205, R206). -/

namespace Sys2Proof.Machine

/-- SRST: every element of state takes its reset value, DONE included (spec/47_control.md rule R205). Like every command it
counts as completed, so that the free values of the next command are fresh. -/
def execSrst (s : State) : Host.Outcome State Fault Refusal :=
  .next { s.resetBlock with completed := s.completed + 1 }

/-- X_ILLEGAL: `raise IllegalCommand(0)` (spec/47_control.md rule R206). -/
def xIllegal (f : Flight) : Except Raise Flight := f.fail .illegalCommand 0

/-- The complete step of a command byte that decodes to ILLEGAL (spec/47_control.md rule R206). -/
def execIllegal (s : State) : Host.Outcome State Fault Refusal :=
  .next (s.complete [(.xIllegal, xIllegal)] fun _ t => t)

end Sys2Proof.Machine
end

