-- ==== Sys2Proof/Machine/Base64.lean ====
section
/-! DEFINITION. The base64url transcoder's functions (spec/45_base64url.md rules R180 to R182, R186). Text is one ASCII code per
byte. -/

namespace Sys2Proof.Machine

/-- The URL-safe alphabet (spec/45_base64url.md rule R180): the character of the 6-bit value `v`. -/
def urlChar (v : Nat) : Byte :=
  if v < 26 then BitVec.ofNat 8 (0x41 + v)
  else if v < 52 then BitVec.ofNat 8 (0x61 + (v - 26))
  else if v < 62 then BitVec.ofNat 8 (0x30 + (v - 52))
  else if v = 62 then 0x2D
  else 0x5F

/-- `StdVal(c)` (spec/45_base64url.md rule R180): the value of a character of the STANDARD alphabet, none for every other byte
(`=`, `-` and `_` included). -/
def stdVal (c : Byte) : Option Nat :=
  let n := c.toNat
  if 0x41 ≤ n ∧ n ≤ 0x5A then some (n - 0x41)
  else if 0x61 ≤ n ∧ n ≤ 0x7A then some (n - 0x61 + 26)
  else if 0x30 ≤ n ∧ n ≤ 0x39 then some (n - 0x30 + 52)
  else if n = 0x2B then some 62
  else if n = 0x2F then some 63
  else none

/-- `B64Len(n)` (spec/45_base64url.md rule R186). -/
def b64Len (n : Nat) : Nat := (4 * n + 2) / 3

/-- `B64UrlEncode(s)` (spec/45_base64url.md rule R181), group of three bytes after group, then the one or two bytes left over. -/
def b64UrlEncode : Bytes → Bytes
  | x :: y :: z :: rest =>
    let v := x.toNat * 65536 + y.toNat * 256 + z.toNat
    urlChar (v / 2 ^ 18 % 64) :: urlChar (v / 2 ^ 12 % 64) :: urlChar (v / 2 ^ 6 % 64) :: urlChar (v % 64) :: b64UrlEncode rest
  | [x, y] =>
    [urlChar (x.toNat / 4), urlChar (x.toNat % 4 * 16 + y.toNat / 16), urlChar (y.toNat % 16 * 4)]
  | [x] => [urlChar (x.toNat / 4), urlChar (x.toNat % 4 * 16)]
  | [] => []

/-- Step 1 of spec/45_base64url.md rule R182: `-` becomes `+`, `_` becomes `/`, every other byte stays. -/
def unsubstitute (c : Byte) : Byte := if c = 0x2D then 0x2B else if c = 0x5F then 0x2F else c

/-- Step 2 of spec/45_base64url.md rule R182: `=` is appended until the length is a multiple of 4. -/
def repad (s : Bytes) : Bytes := s ++ rep 0x3D ((4 - s.length % 4) % 4)

/-- The number of consecutive `=` at the end. -/
def trailingPads (s : Bytes) : Nat := (s.reverse.takeWhile (fun c => c = 0x3D)).length

/-- The values of the data characters, none if one of them is outside the standard alphabet. -/
def dataValues : Bytes → Option (List Nat)
  | [] => some []
  | c :: rest =>
    match stdVal c, dataValues rest with
    | some v, some vs => some (v :: vs)
    | _, _ => none

/-- The number that base-64 digits write, most significant first: `w` of spec/45_base64url.md rule R182. -/
def digitsValue (vs : List Nat) : Nat := vs.foldl (fun acc v => acc * 64 + v) 0

/-- Step 3 of spec/45_base64url.md rule R182, standard base64 decode of a text whose length is a multiple of 4: at most two pads,
every data character in the alphabet, and the 0, 2 or 4 spare bits dropped unchecked. -/
def stdDecode (s : Bytes) : Option Bytes :=
  let p := trailingPads s
  if 2 < p then none
  else
    let d := s.length - p
    match dataValues (s.take d) with
    | none => none
    | some vs =>
      let k := 6 * d / 8
      some (be k (digitsValue vs / 2 ^ (6 * d - 8 * k)))

/-- `B64UrlDecode(t)` (spec/45_base64url.md rule R182); none is `fail`. -/
def b64UrlDecode (t : Bytes) : Option Bytes := stdDecode (repad (t.map unsubstitute))

end Sys2Proof.Machine
end

