-- ==== Sys2Proof/Machine/KeyLoad.lean ====
section
/-! DEFINITION. The Key Parser's commands KEYLD.RAW and KEYLD.B64 (spec/42_key_load.md rules R145 to R147). -/

namespace Sys2Proof.Machine

/-- `sk` of `KeySplit(raw)` (spec/42_key_load.md rule R147): bytes 0 to 15. -/
def keySk (raw : Bytes) : Bytes16 := toVec 16 (slice raw 0 16)

/-- `ek` of `KeySplit(raw)` (spec/42_key_load.md rule R147): bytes 16 to 31. -/
def keyEk (raw : Bytes) : Bytes16 := toVec 16 (slice raw 16 32)

/-- K_ADMIT (spec/42_key_load.md rules R145, R146); the input is read once it is admitted. -/
def kAdmit (s : State) (f : Flight) : Except Raise Flight :=
  if s.bufMax < s.ilen.toNat then f.fail .badLength 0
  else if s.keyValid then f.fail .keyLocked 0
  else .ok { f with inp := s.input }

/-- K_DECODE (spec/42_key_load.md rule R146). -/
def kDecode (f : Flight) : Except Raise Flight :=
  match b64UrlDecode f.inp with
  | none => f.fail .invalidKeyFormat 0
  | some raw => .ok { f with inp := raw }

/-- K_LENGTH (spec/42_key_load.md rules R145, R146). -/
def kLength (f : Flight) : Except Raise Flight :=
  if f.inp.length ≠ 32 then f.fail .invalidKeyLength 0 else .ok f

/-- K_SPLIT (spec/42_key_load.md rules R145, R146). -/
def kSplit (f : Flight) : Except Raise Flight := .ok { f with sk := keySk f.inp, ek := keyEk f.inp }

/-- The phases of KEYLD.RAW. -/
def keyldRawPhases (s : State) : List PhaseWork := [(.kAdmit, kAdmit s), (.kLength, kLength), (.kSplit, kSplit)]

/-- The phases of KEYLD.B64. -/
def keyldB64Phases (s : State) : List PhaseWork :=
  [(.kAdmit, kAdmit s), (.kDecode, kDecode), (.kLength, kLength), (.kSplit, kSplit)]

/-- What both write on success: `SK <- sk; EK <- ek; KEY_VALID <- 1`. -/
def keyCommit (f : Flight) (s : State) : State := { s with sk := f.sk, ek := f.ek, keyValid := true }

/-- KEYLD.RAW: load a key given as 32 raw bytes (spec/42_key_load.md rule R145). -/
def execKeyldRaw (s : State) : Host.Outcome State Fault Refusal := .next (s.complete (keyldRawPhases s) keyCommit)

/-- KEYLD.B64: load a key given as base64url text (spec/42_key_load.md rule R146). -/
def execKeyldB64 (s : State) : Host.Outcome State Fault Refusal := .next (s.complete (keyldB64Phases s) keyCommit)

end Sys2Proof.Machine
end

