-- ==== Sys2Proof/Machine/Aes.lean ====
section
/-! DEFINITION. AES-128, the function behind the AES port (spec/48_primitives_aes_sha256.md rules R215 to R222). The spec
gives it from general knowledge (FIPS 197); the model computes it. A state and a key are byte strings of 16 bytes, byte
`r + 4c` in row `r`, column `c` (rule R215). -/

namespace Sys2Proof.Machine

/-- `xtime` of spec/48 rule R215: doubling in GF(2^8) modulo 0x11B. -/
def xtime (a : Byte) : Byte := if a.getLsbD 7 then (a <<< 1) ^^^ 0x1B else a <<< 1

/-- `xtime^j(a)`. -/
def xtimes : Nat → Byte → Byte
  | 0, a => a
  | j + 1, a => xtime (xtimes j a)

/-- `mul(a, b)` of spec/48 rule R215: the sum (xor) over the set bits `j` of `b` of `xtime^j(a)`. -/
def gmul (a b : Byte) : Byte :=
  (List.range 8).foldl (fun acc j => if b.getLsbD j then acc ^^^ xtimes j a else acc) 0

/-- The rows of SBOX (spec/48 rule R216): row `R` holds the entries 0xR0 to 0xRF. -/
def sboxRows : List Bytes :=
  [
   [0x63, 0x7C, 0x77, 0x7B, 0xF2, 0x6B, 0x6F, 0xC5, 0x30, 0x01, 0x67, 0x2B, 0xFE, 0xD7, 0xAB, 0x76],
   [0xCA, 0x82, 0xC9, 0x7D, 0xFA, 0x59, 0x47, 0xF0, 0xAD, 0xD4, 0xA2, 0xAF, 0x9C, 0xA4, 0x72, 0xC0],
   [0xB7, 0xFD, 0x93, 0x26, 0x36, 0x3F, 0xF7, 0xCC, 0x34, 0xA5, 0xE5, 0xF1, 0x71, 0xD8, 0x31, 0x15],
   [0x04, 0xC7, 0x23, 0xC3, 0x18, 0x96, 0x05, 0x9A, 0x07, 0x12, 0x80, 0xE2, 0xEB, 0x27, 0xB2, 0x75],
   [0x09, 0x83, 0x2C, 0x1A, 0x1B, 0x6E, 0x5A, 0xA0, 0x52, 0x3B, 0xD6, 0xB3, 0x29, 0xE3, 0x2F, 0x84],
   [0x53, 0xD1, 0x00, 0xED, 0x20, 0xFC, 0xB1, 0x5B, 0x6A, 0xCB, 0xBE, 0x39, 0x4A, 0x4C, 0x58, 0xCF],
   [0xD0, 0xEF, 0xAA, 0xFB, 0x43, 0x4D, 0x33, 0x85, 0x45, 0xF9, 0x02, 0x7F, 0x50, 0x3C, 0x9F, 0xA8],
   [0x51, 0xA3, 0x40, 0x8F, 0x92, 0x9D, 0x38, 0xF5, 0xBC, 0xB6, 0xDA, 0x21, 0x10, 0xFF, 0xF3, 0xD2],
   [0xCD, 0x0C, 0x13, 0xEC, 0x5F, 0x97, 0x44, 0x17, 0xC4, 0xA7, 0x7E, 0x3D, 0x64, 0x5D, 0x19, 0x73],
   [0x60, 0x81, 0x4F, 0xDC, 0x22, 0x2A, 0x90, 0x88, 0x46, 0xEE, 0xB8, 0x14, 0xDE, 0x5E, 0x0B, 0xDB],
   [0xE0, 0x32, 0x3A, 0x0A, 0x49, 0x06, 0x24, 0x5C, 0xC2, 0xD3, 0xAC, 0x62, 0x91, 0x95, 0xE4, 0x79],
   [0xE7, 0xC8, 0x37, 0x6D, 0x8D, 0xD5, 0x4E, 0xA9, 0x6C, 0x56, 0xF4, 0xEA, 0x65, 0x7A, 0xAE, 0x08],
   [0xBA, 0x78, 0x25, 0x2E, 0x1C, 0xA6, 0xB4, 0xC6, 0xE8, 0xDD, 0x74, 0x1F, 0x4B, 0xBD, 0x8B, 0x8A],
   [0x70, 0x3E, 0xB5, 0x66, 0x48, 0x03, 0xF6, 0x0E, 0x61, 0x35, 0x57, 0xB9, 0x86, 0xC1, 0x1D, 0x9E],
   [0xE1, 0xF8, 0x98, 0x11, 0x69, 0xD9, 0x8E, 0x94, 0x9B, 0x1E, 0x87, 0xE9, 0xCE, 0x55, 0x28, 0xDF],
   [0x8C, 0xA1, 0x89, 0x0D, 0xBF, 0xE6, 0x42, 0x68, 0x41, 0x99, 0x2D, 0x0F, 0xB0, 0x54, 0xBB, 0x16]
  ]

/-- The rows of INVSBOX (spec/48 rule R217). -/
def invSboxRows : List Bytes :=
  [
   [0x52, 0x09, 0x6A, 0xD5, 0x30, 0x36, 0xA5, 0x38, 0xBF, 0x40, 0xA3, 0x9E, 0x81, 0xF3, 0xD7, 0xFB],
   [0x7C, 0xE3, 0x39, 0x82, 0x9B, 0x2F, 0xFF, 0x87, 0x34, 0x8E, 0x43, 0x44, 0xC4, 0xDE, 0xE9, 0xCB],
   [0x54, 0x7B, 0x94, 0x32, 0xA6, 0xC2, 0x23, 0x3D, 0xEE, 0x4C, 0x95, 0x0B, 0x42, 0xFA, 0xC3, 0x4E],
   [0x08, 0x2E, 0xA1, 0x66, 0x28, 0xD9, 0x24, 0xB2, 0x76, 0x5B, 0xA2, 0x49, 0x6D, 0x8B, 0xD1, 0x25],
   [0x72, 0xF8, 0xF6, 0x64, 0x86, 0x68, 0x98, 0x16, 0xD4, 0xA4, 0x5C, 0xCC, 0x5D, 0x65, 0xB6, 0x92],
   [0x6C, 0x70, 0x48, 0x50, 0xFD, 0xED, 0xB9, 0xDA, 0x5E, 0x15, 0x46, 0x57, 0xA7, 0x8D, 0x9D, 0x84],
   [0x90, 0xD8, 0xAB, 0x00, 0x8C, 0xBC, 0xD3, 0x0A, 0xF7, 0xE4, 0x58, 0x05, 0xB8, 0xB3, 0x45, 0x06],
   [0xD0, 0x2C, 0x1E, 0x8F, 0xCA, 0x3F, 0x0F, 0x02, 0xC1, 0xAF, 0xBD, 0x03, 0x01, 0x13, 0x8A, 0x6B],
   [0x3A, 0x91, 0x11, 0x41, 0x4F, 0x67, 0xDC, 0xEA, 0x97, 0xF2, 0xCF, 0xCE, 0xF0, 0xB4, 0xE6, 0x73],
   [0x96, 0xAC, 0x74, 0x22, 0xE7, 0xAD, 0x35, 0x85, 0xE2, 0xF9, 0x37, 0xE8, 0x1C, 0x75, 0xDF, 0x6E],
   [0x47, 0xF1, 0x1A, 0x71, 0x1D, 0x29, 0xC5, 0x89, 0x6F, 0xB7, 0x62, 0x0E, 0xAA, 0x18, 0xBE, 0x1B],
   [0xFC, 0x56, 0x3E, 0x4B, 0xC6, 0xD2, 0x79, 0x20, 0x9A, 0xDB, 0xC0, 0xFE, 0x78, 0xCD, 0x5A, 0xF4],
   [0x1F, 0xDD, 0xA8, 0x33, 0x88, 0x07, 0xC7, 0x31, 0xB1, 0x12, 0x10, 0x59, 0x27, 0x80, 0xEC, 0x5F],
   [0x60, 0x51, 0x7F, 0xA9, 0x19, 0xB5, 0x4A, 0x0D, 0x2D, 0xE5, 0x7A, 0x9F, 0x93, 0xC9, 0x9C, 0xEF],
   [0xA0, 0xE0, 0x3B, 0x4D, 0xAE, 0x2A, 0xF5, 0xB0, 0xC8, 0xEB, 0xBB, 0x3C, 0x83, 0x53, 0x99, 0x61],
   [0x17, 0x2B, 0x04, 0x7E, 0xBA, 0x77, 0xD6, 0x26, 0xE1, 0x69, 0x14, 0x63, 0x55, 0x21, 0x0C, 0x7D]
  ]

/-- A 16 by 16 table read at a byte: row = the high four bits, column = the low four (spec/48 rule R216). -/
def tableAt (rows : List Bytes) (a : Byte) : Byte := (rows.getD (a.toNat / 16) []).getD (a.toNat % 16) 0

/-- `SBOX[a]` (spec/48 rule R216). -/
def sbox (a : Byte) : Byte := tableAt sboxRows a

/-- `INVSBOX[a]` (spec/48 rule R217). -/
def invSbox (a : Byte) : Byte := tableAt invSboxRows a

/-- RCON of spec/48 rule R218. -/
def rcon : Bytes := [0x01, 0x02, 0x04, 0x08, 0x10, 0x20, 0x40, 0x80, 0x1B, 0x36]

/-- The word `t` of spec/48 rule R218 for word number `i`: the word before, and at every fourth word that word rotated left
by one byte, substituted, and its first byte xor-ed with RCON. -/
def keyTemp (i : Nat) (prev : Bytes) : Bytes :=
  if i % 4 = 0 then
    match (prev.drop 1 ++ prev.take 1).map sbox with
    | t0 :: rest => (t0 ^^^ rcon.getD (i / 4 - 1) 0) :: rest
    | [] => []
  else prev

/-- `count` further words of the key expansion, from word number `i` on; the words made so far stand newest first, so
`w[i-1]` is at 0 and `w[i-4]` at 3 (spec/48 rule R218). -/
def expandWords : Nat → Nat → List Bytes → List Bytes
  | 0, _, ws => ws
  | count + 1, i, ws => expandWords count (i + 1) (xorb (ws.getD 3 []) (keyTemp i (ws.getD 0 [])) :: ws)

/-- The 44 words `w[0..44)` of spec/48 rule R218. -/
def keyWords (k : Bytes) : List Bytes :=
  (expandWords 40 4 [slice k 12 16, slice k 8 12, slice k 4 8, slice k 0 4]).reverse

/-- The round key `rk[r]` of spec/48 rule R218. -/
def roundKey (ws : List Bytes) (r : Nat) : Bytes := ((ws.drop (4 * r)).take 4).flatten

/-- SubBytes (spec/48 rule R222). -/
def subBytes (s : Bytes) : Bytes := s.map sbox

/-- InvSubBytes (spec/48 rule R222). -/
def invSubBytes (s : Bytes) : Bytes := s.map invSbox

/-- ShiftRows (spec/48 rule R222): `o[r + 4c] = s[r + 4((c + r) mod 4)]`, row `r` rotates left by `r`. -/
def shiftRows (s : Bytes) : Bytes :=
  (List.range 16).map fun i => s.getD (i % 4 + 4 * ((i / 4 + i % 4) % 4)) 0

/-- InvShiftRows (spec/48 rule R222): `o[r + 4((c + r) mod 4)] = s[r + 4c]`, row `r` rotates right by `r`. -/
def invShiftRows (s : Bytes) : Bytes :=
  (List.range 16).map fun i => s.getD (i % 4 + 4 * ((i / 4 + 4 - i % 4) % 4)) 0

/-- MixColumns (spec/48 rule R222), column after column. -/
def mixColumns : Bytes → Bytes
  | a0 :: a1 :: a2 :: a3 :: rest =>
    (gmul a0 2 ^^^ gmul a1 3 ^^^ a2 ^^^ a3) :: (a0 ^^^ gmul a1 2 ^^^ gmul a2 3 ^^^ a3)
      :: (a0 ^^^ a1 ^^^ gmul a2 2 ^^^ gmul a3 3) :: (gmul a0 3 ^^^ a1 ^^^ a2 ^^^ gmul a3 2) :: mixColumns rest
  | _ => []

/-- InvMixColumns (spec/48 rule R222), column after column. -/
def invMixColumns : Bytes → Bytes
  | a0 :: a1 :: a2 :: a3 :: rest =>
    (gmul a0 14 ^^^ gmul a1 11 ^^^ gmul a2 13 ^^^ gmul a3 9) :: (gmul a0 9 ^^^ gmul a1 14 ^^^ gmul a2 11 ^^^ gmul a3 13)
      :: (gmul a0 13 ^^^ gmul a1 9 ^^^ gmul a2 14 ^^^ gmul a3 11) :: (gmul a0 11 ^^^ gmul a1 13 ^^^ gmul a2 9 ^^^ gmul a3 14)
      :: invMixColumns rest
  | _ => []

/-- AddRoundKey (spec/48 rule R222). -/
def addRoundKey (s k : Bytes) : Bytes := xorb s k

/-- One full round of encryption (spec/48 rule R219, r = 1 .. 9). -/
def encRound (ws : List Bytes) (s : Bytes) (r : Nat) : Bytes :=
  addRoundKey (mixColumns (shiftRows (subBytes s))) (roundKey ws r)

/-- One full round of decryption (spec/48 rule R220, r = 9 down to 1). -/
def decRound (ws : List Bytes) (s : Bytes) (r : Nat) : Bytes :=
  invMixColumns (addRoundKey (invSubBytes (invShiftRows s)) (roundKey ws r))

/-- `AesEnc(k, x)` (spec/48 rule R219). -/
def aesEnc (k x : Bytes) : Bytes :=
  let ws := keyWords k
  let s := [1, 2, 3, 4, 5, 6, 7, 8, 9].foldl (encRound ws) (addRoundKey x (roundKey ws 0))
  addRoundKey (shiftRows (subBytes s)) (roundKey ws 10)

/-- `AesDec(k, y)` (spec/48 rule R220). -/
def aesDec (k y : Bytes) : Bytes :=
  let ws := keyWords k
  let s := [9, 8, 7, 6, 5, 4, 3, 2, 1].foldl (decRound ws) (addRoundKey y (roundKey ws 10))
  addRoundKey (invSubBytes (invShiftRows s)) (roundKey ws 0)

end Sys2Proof.Machine
end

