-- ==== Sys2Proof/Machine/Sha256.lean ====
section
/-! DEFINITION. SHA-256, the function behind the SHA-256 port (spec/48_primitives_aes_sha256.md rules R225 to R228). The spec
gives it from general knowledge (FIPS 180-4); the model computes it. -/

namespace Sys2Proof.Machine

/-- The eight words of a hash value (spec/48 rules R225, R227). -/
structure Hash where
  a : Word32
  b : Word32
  c : Word32
  d : Word32
  e : Word32
  f : Word32
  g : Word32
  h : Word32
deriving DecidableEq, Repr

/-- H0, the initial hash value (spec/48 rule R225). -/
def shaH0 : Hash :=
  ⟨0x6A09E667, 0xBB67AE85, 0x3C6EF372, 0xA54FF53A, 0x510E527F, 0x9B05688C, 0x1F83D9AB, 0x5BE0CD19⟩

/-- The round constants `K[0..64)` (spec/48 rule R225). -/
def shaK : List Word32 :=
  [
   0x428A2F98, 0x71374491, 0xB5C0FBCF, 0xE9B5DBA5,
   0x3956C25B, 0x59F111F1, 0x923F82A4, 0xAB1C5ED5,
   0xD807AA98, 0x12835B01, 0x243185BE, 0x550C7DC3,
   0x72BE5D74, 0x80DEB1FE, 0x9BDC06A7, 0xC19BF174,
   0xE49B69C1, 0xEFBE4786, 0x0FC19DC6, 0x240CA1CC,
   0x2DE92C6F, 0x4A7484AA, 0x5CB0A9DC, 0x76F988DA,
   0x983E5152, 0xA831C66D, 0xB00327C8, 0xBF597FC7,
   0xC6E00BF3, 0xD5A79147, 0x06CA6351, 0x14292967,
   0x27B70A85, 0x2E1B2138, 0x4D2C6DFC, 0x53380D13,
   0x650A7354, 0x766A0ABB, 0x81C2C92E, 0x92722C85,
   0xA2BFE8A1, 0xA81A664B, 0xC24B8B70, 0xC76C51A3,
   0xD192E819, 0xD6990624, 0xF40E3585, 0x106AA070,
   0x19A4C116, 0x1E376C08, 0x2748774C, 0x34B0BCB5,
   0x391C0CB3, 0x4ED8AA4A, 0x5B9CCA4F, 0x682E6FF3,
   0x748F82EE, 0x78A5636F, 0x84C87814, 0x8CC70208,
   0x90BEFFFA, 0xA4506CEB, 0xBEF9A3F7, 0xC67178F2
  ]

/-- `rotr(x, n)` (spec/48 rule R225). -/
def rotr (x : Word32) (n : Nat) : Word32 := (x >>> n) ||| (x <<< (32 - n))

/-- `s0` of spec/48 rule R227. -/
def smallSigma0 (x : Word32) : Word32 := rotr x 7 ^^^ rotr x 18 ^^^ (x >>> 3)

/-- `s1` of spec/48 rule R227. -/
def smallSigma1 (x : Word32) : Word32 := rotr x 17 ^^^ rotr x 19 ^^^ (x >>> 10)

/-- `S0` of spec/48 rule R227. -/
def bigSigma0 (x : Word32) : Word32 := rotr x 2 ^^^ rotr x 13 ^^^ rotr x 22

/-- `S1` of spec/48 rule R227. -/
def bigSigma1 (x : Word32) : Word32 := rotr x 6 ^^^ rotr x 11 ^^^ rotr x 25

/-- `Ch` of spec/48 rule R227. -/
def shaCh (x y z : Word32) : Word32 := (x &&& y) ^^^ (~~~x &&& z)

/-- `Maj` of spec/48 rule R227. -/
def shaMaj (x y z : Word32) : Word32 := (x &&& y) ^^^ (x &&& z) ^^^ (y &&& z)

/-- The bytes of zero fill in `Pad` (spec/48 rule R226): the least `z` with `(n + 1 + z) mod 64 = 56`. -/
def shaZeros (n : Nat) : Nat := (119 - n % 64) % 64

/-- `Pad(m)` (spec/48 rule R226). -/
def shaPad (m : Bytes) : Bytes := m ++ [0x80] ++ rep 0x00 (shaZeros m.length) ++ be 8 (8 * m.length)

/-- The 16 words of a 64-byte block, each read big-endian: `W[0..16)` (spec/48 rule R227). -/
def blockWords (b : Bytes) : List Word32 :=
  (List.range 16).map fun t => BitVec.ofNat 32 (unbe (slice b (4 * t) (4 * t + 4)))

/-- `count` further words of the message schedule; the words made so far stand newest first, so `W[t-2]` is at 1,
`W[t-7]` at 6, `W[t-15]` at 14 and `W[t-16]` at 15 (spec/48 rule R227). -/
def extendSchedule : Nat → List Word32 → List Word32
  | 0, ws => ws
  | count + 1, ws =>
    extendSchedule count
      ((smallSigma1 (ws.getD 1 0) + ws.getD 6 0 + smallSigma0 (ws.getD 14 0) + ws.getD 15 0) :: ws)

/-- The message schedule `W[0..64)` of a block (spec/48 rule R227). -/
def schedule (b : Bytes) : List Word32 := (extendSchedule 48 (blockWords b).reverse).reverse

/-- One of the 64 rounds (spec/48 rule R227), with the round's `(K[t], W[t])`. -/
def shaRound (s : Hash) (kw : Word32 × Word32) : Hash :=
  let t1 := s.h + bigSigma1 s.e + shaCh s.e s.f s.g + kw.1 + kw.2
  let t2 := bigSigma0 s.a + shaMaj s.a s.b s.c
  ⟨t1 + t2, s.a, s.b, s.c, s.d + t1, s.e, s.f, s.g⟩

/-- `Compress(H, B)` (spec/48 rule R227). -/
def compress (h : Hash) (b : Bytes) : Hash :=
  let r := (shaK.zip (schedule b)).foldl shaRound h
  ⟨h.a + r.a, h.b + r.b, h.c + r.c, h.d + r.d, h.e + r.e, h.f + r.f, h.g + r.g, h.h + r.h⟩

/-- The 32 bytes of a hash value (spec/48 rule R228). -/
def hashBytes (h : Hash) : Bytes :=
  be 4 h.a.toNat ++ be 4 h.b.toNat ++ be 4 h.c.toNat ++ be 4 h.d.toNat ++ be 4 h.e.toNat ++ be 4 h.f.toNat
    ++ be 4 h.g.toNat ++ be 4 h.h.toNat

/-- `Sha256(m)` (spec/48 rule R228): the padded message block after block of 64 bytes. -/
def sha256 (m : Bytes) : Bytes :=
  let p := shaPad m
  hashBytes ((List.range (p.length / 64)).foldl (fun h j => compress h (slice p (64 * j) (64 * j + 64))) shaH0)

end Sys2Proof.Machine
end

