-- ==== Sys2Proof/Machine/Datapath.lean ====
section
/-! DEFINITION. The AES-CBC controller with PKCS#7 padding and the HMAC-SHA256 sequencer (spec/41_cbc_hmac_datapath.md rules R125 to
R132), and the requests they make of the AES and SHA-256 ports (spec/20_memory.md rules R77, R78). -/

namespace Sys2Proof.Machine

/-! ### PKCS#7 -/

/-- `Pkcs7Pad(p)` (spec/41 rule R125). -/
def pkcs7Pad (p : Bytes) : Bytes :=
  let k := 16 - p.length % 16
  p ++ rep (BitVec.ofNat 8 k) k

/-- `Pkcs7Unpad(x)` (spec/41 rule R126), for a string whose length is a positive multiple of 16; none is `fail`. All `k` trailing
bytes are checked. Of another length they are checked alike: DESIGN CHOICE (log entry 15). -/
def pkcs7Unpad (x : Bytes) : Option Bytes :=
  let m := x.length
  let last := x.getD (m - 1) 0
  let k := last.toNat
  if k < 1 ∨ 16 < k then none
  else if (slice x (m - k) m).any (fun b => b != last) then none
  else some (slice x 0 (m - k))

/-! ### CBC -/

/-- The 16-byte blocks `x_i = x[16i..16i+16)` of a string of `16·b` bytes (spec/41 rule R127). What is left over
of another length is dropped: DESIGN CHOICE (log entry 15). -/
def blocks16 (x : Bytes) : List Bytes :=
  (List.range (x.length / 16)).map fun i => slice x (16 * i) (16 * i + 16)

/-- The ciphertext blocks, with the chaining block in front (spec/41 rule R127): `c_i = AesEnc(k, xorb(x_i, c_{i-1}))`. -/
def cbcEncBlocks (k : Bytes) : Bytes → List Bytes → List Bytes
  | _, [] => []
  | chain, x :: xs =>
    let c := aesEnc k (xorb x chain)
    c :: cbcEncBlocks k c xs

/-- The plaintext blocks (spec/41 rule R128): `x_i = xorb(AesDec(k, c_i), c_{i-1})`. -/
def cbcDecBlocks (k : Bytes) : Bytes → List Bytes → List Bytes
  | _, [] => []
  | chain, c :: cs => xorb (aesDec k c) chain :: cbcDecBlocks k c cs

/-- `CbcEncrypt(k, iv, x)` (spec/41 rule R127). -/
def cbcEncrypt (k iv x : Bytes) : Bytes := (cbcEncBlocks k iv (blocks16 x)).flatten

/-- `CbcDecrypt(k, iv, c)` (spec/41 rule R128). -/
def cbcDecrypt (k iv c : Bytes) : Bytes := (cbcDecBlocks k iv (blocks16 c)).flatten

/-- `EncryptPayload(ek, iv, p)` (spec/41 rule R129). -/
def encryptPayload (ek iv p : Bytes) : Bytes := cbcEncrypt ek iv (pkcs7Pad p)

/-- `DecryptPayload(ek, iv, c)` (spec/41 rule R130); none is `fail`. -/
def decryptPayload (ek iv c : Bytes) : Option Bytes := pkcs7Unpad (cbcDecrypt ek iv c)

/-! ### HMAC -/

/-- The message of the inner hash: `xorb(K0, ipad) ++ m` (spec/41 rule R131). Of a key longer than 64 bytes the first 64 are taken:
DESIGN CHOICE (log entry 15). -/
def hmacInnerMsg (k m : Bytes) : Bytes := xorb (k ++ rep 0x00 (64 - k.length)) (rep 0x36 64) ++ m

/-- The message of the outer hash: `xorb(K0, opad) ++ inner` (spec/41 rule R131), the key as for the inner one. -/
def hmacOuterMsg (k inner : Bytes) : Bytes := xorb (k ++ rep 0x00 (64 - k.length)) (rep 0x5C 64) ++ inner

/-- `HmacSha256(k, m)` (spec/41 rule R131). -/
def hmacSha256 (k m : Bytes) : Bytes := sha256 (hmacOuterMsg k (sha256 (hmacInnerMsg k m)))

/-- `Tag(sk, body)` (spec/41 rule R132). -/
def macTag (sk body : Bytes) : Bytes := hmacSha256 sk body

/-! ### Port requests -/

/-- The AES requests of CbcEncrypt, one a block in order: the block asked for is `xorb(x_i, c_{i-1})` (spec/20_memory.md rule R77,
spec/41 rule R127). -/
def cbcEncAsks (k : Bytes) : Bytes → List Bytes → List PortRequest
  | _, [] => []
  | chain, x :: xs => .aes .encrypt k (xorb x chain) :: cbcEncAsks k (aesEnc k (xorb x chain)) xs

/-- The AES requests of EncryptPayload. -/
def encryptAsks (ek iv p : Bytes) : List PortRequest := cbcEncAsks ek iv (blocks16 (pkcs7Pad p))

/-- The AES requests of DecryptPayload, one a ciphertext block in order (spec/20_memory.md rule R77, spec/41 rule R128). -/
def decryptAsks (ek c : Bytes) : List PortRequest := (blocks16 c).map fun b => .aes .decrypt ek b

/-- The two SHA-256 requests of one tag, inner then outer (spec/41 rule R131, spec/20_memory.md rule R78). -/
def tagAsks (sk body : Bytes) : List PortRequest :=
  [.sha (hmacInnerMsg sk body), .sha (hmacOuterMsg sk (sha256 (hmacInnerMsg sk body)))]

end Sys2Proof.Machine
end

