-- ==== Sys2Proof/Machine/Framer.lean ====
section
/-! DEFINITION. The token framer (spec/40_token_framer.md rules R110 to R115). -/

namespace Sys2Proof.Machine

/-- VERSION (spec/00_scope.md rule R6). -/
def tokenVersion : Byte := 0x80

/-- `LengthOk(L)` (spec/40_token_framer.md rule R112). -/
def lengthOk (len : Nat) : Bool := decide (73 ≤ len) && decide ((len - 57) % 16 = 0)

/-- The fields of a binary token (spec/40_token_framer.md rules R110, R113). -/
structure TokenFields where
  ver : Byte
  ts : Bytes
  iv : Bytes
  ct : Bytes
  tag : Bytes
  body : Bytes
deriving DecidableEq, Repr

/-- `Split(T)` (spec/40_token_framer.md rule R113) at the offsets of rule R111, for a token of valid length. Of another
length the fields are what the slices give: DESIGN CHOICE (log entry 15). -/
def splitToken (t : Bytes) : TokenFields :=
  let len := t.length
  { ver := t.getD 0 0
    ts := slice t 1 9
    iv := slice t 9 25
    ct := slice t 25 (len - 32)
    tag := slice t (len - 32) len
    body := slice t 0 (len - 32) }

/-- `Body(ts, iv, ct)` (spec/40_token_framer.md rule R114). -/
def tokenBody (ts iv ct : Bytes) : Bytes := [tokenVersion] ++ ts ++ iv ++ ct

/-- `Frame(body, tag)` (spec/40_token_framer.md rule R114). -/
def frameToken (body tag : Bytes) : Bytes := body ++ tag

/-- `TokenLen(n)` (spec/40_token_framer.md rule R115). -/
def tokenLen (n : Nat) : Nat := 57 + 16 * (n / 16 + 1)

end Sys2Proof.Machine
end

