-- ==== Sys2Proof/Machine/TokenDecode.lean ====
section
/-! DEFINITION. The Token Decoder's command DEC (spec/44_token_decode.md rule R165): decode, decrypt, and only then
authenticate. -/

namespace Sys2Proof.Machine

/-- D_ADMIT (spec/44_token_decode.md rule R165). -/
def dAdmit (s : State) (f : Flight) : Except Raise Flight :=
  if s.bufMax < s.ilen.toNat then f.fail .badLength 0
  else if !s.keyValid then f.fail .noKey 0
  else .ok { f with inp := s.input }

/-- D1, transport decode (spec/44_token_decode.md rule R165). -/
def dTransport (f : Flight) : Except Raise Flight :=
  match b64UrlDecode f.inp with
  | none => f.fail .tokenDecodingFailed 0
  | some t => .ok { f with tok := t }

/-- D2, length validation (spec/44_token_decode.md rule R165). -/
def dLength (f : Flight) : Except Raise Flight :=
  if lengthOk f.tok.length then .ok f else f.fail .invalidTokenFormat 0

/-- D3, field split (spec/44_token_decode.md rule R165). -/
def dSplit (f : Flight) : Except Raise Flight :=
  let t := splitToken f.tok
  .ok { f with ver := t.ver, ts := toVec 8 t.ts, iv := toVec 16 t.iv, ct := t.ct, tag := t.tag, body := t.body }

/-- D4, version check (spec/44_token_decode.md rule R165). -/
def dVersion (f : Flight) : Except Raise Flight :=
  if f.ver ≠ tokenVersion then f.fail .unknownVersion 0 else .ok f

/-- D5, decrypt (spec/44_token_decode.md rule R165; spec/41_cbc_hmac_datapath.md rules R130, R133): the port fault before the
padding. -/
def dDecrypt (s : State) (f : Flight) : Except Raise Flight :=
  if s.draws.aesFault ≠ 0 then f.fail .cipherError s.draws.aesFault
  else
    let g : Flight := { f with asked := f.asked ++ decryptAsks s.ek.toList f.ct }
    match decryptPayload s.ek.toList f.iv.toList f.ct with
    | none => g.fail .cipherError 0
    | some p => .ok { g with out := p }

/-- D6, authenticate (spec/44_token_decode.md rule R165): the comparison's result is a flag, not an error. -/
def dAuthenticate (s : State) (f : Flight) : Except Raise Flight :=
  if s.draws.macFault ≠ 0 then f.fail .authError s.draws.macFault
  else .ok { f with ok := ctEq (macTag s.sk.toList f.body) f.tag, asked := f.asked ++ tagAsks s.sk.toList f.body }

/-- D7, return (spec/44_token_decode.md rule R165): its writes are `decCommit`. -/
def dReturn (f : Flight) : Except Raise Flight := .ok f

/-- The phases of DEC. -/
def decPhases (s : State) : List PhaseWork :=
  [(.dAdmit, dAdmit s), (.d1TransportDecode, dTransport), (.d2LengthValidation, dLength), (.d3FieldSplit, dSplit),
    (.d4VersionCheck, dVersion), (.d5Decrypt, dDecrypt s), (.d6Authenticate, dAuthenticate s), (.d7Return, dReturn)]

/-- What DEC writes on success: OBUF, OLEN, HMAC_OK and TS_OUT. -/
def decCommit (f : Flight) (s : State) : State := { s.putOutput f.out with hmacOk := f.ok, tsOut := f.ts }

/-- DEC: decode, decrypt and authenticate a token (spec/44_token_decode.md rule R165). One set of port draws belongs to the
command (spec/10_state.md rule R45). -/
def execDec (s : State) : Host.Outcome State Fault Refusal := .next (s.takeDraws.complete (decPhases s) decCommit)

end Sys2Proof.Machine
end

