-- ==== Sys2Proof/Machine/TokenEncode.lean ====
section
/-! DEFINITION. The Token Encoder's command ENC in its four flag forms (spec/43_token_encode.md rule R155). -/

namespace Sys2Proof.Machine

/-- E_ADMIT (spec/43_token_encode.md rule R155). -/
def eAdmit (s : State) (f : Flight) : Except Raise Flight :=
  if s.bufMax < s.ilen.toNat then f.fail .badLength 0
  else if !s.keyValid then f.fail .noKey 0
  else if s.bufMax < b64Len (tokenLen s.ilen.toNat) then f.fail .overflow 0
  else .ok { f with inp := s.input }

/-- E_TIME (spec/43_token_encode.md rule R155): TS as it stands, or the seconds of the now port (spec/20_memory.md rule R75,
spec/40_token_framer.md rule R117). -/
def eTime (tssrc : Bool) (s : State) (f : Flight) : Except Raise Flight :=
  if tssrc then .ok { f with ts := s.ts }
  else .ok { f with ts := be8 s.draws.nowSec, asked := f.asked ++ [.now] }

/-- E_IV (spec/43_token_encode.md rule R155): IV with its length in IVLEN, or 16 bytes of the rng port (spec/20_memory.md rule
R76). The port is asked before its answer's length is tested. -/
def eIv (ivsrc : Bool) (s : State) (f : Flight) : Except Raise Flight :=
  if ivsrc then
    if s.ivlen ≠ 16 then f.fail .invalidIV 0 else .ok { f with iv := s.iv }
  else
    let g : Flight := { f with asked := f.asked ++ [.rng 16] }
    if s.draws.rngLen ≠ 16 then g.fail .invalidIV 0 else .ok { g with iv := s.draws.rngBytes }

/-- E_CIPHER (spec/43_token_encode.md rule R155; spec/41_cbc_hmac_datapath.md rules R129, R133). -/
def eCipher (s : State) (f : Flight) : Except Raise Flight :=
  if s.draws.aesFault ≠ 0 then f.fail .cipherError s.draws.aesFault
  else .ok { f with
    ct := encryptPayload s.ek.toList f.iv.toList f.inp
    asked := f.asked ++ encryptAsks s.ek.toList f.iv.toList f.inp }

/-- E_FRAME (spec/43_token_encode.md rule R155). -/
def eFrame (f : Flight) : Except Raise Flight := .ok { f with body := tokenBody f.ts.toList f.iv.toList f.ct }

/-- E_MAC (spec/43_token_encode.md rule R155; spec/41_cbc_hmac_datapath.md rules R132, R133). -/
def eMac (s : State) (f : Flight) : Except Raise Flight :=
  if s.draws.macFault ≠ 0 then f.fail .authError s.draws.macFault
  else .ok { f with tag := macTag s.sk.toList f.body, asked := f.asked ++ tagAsks s.sk.toList f.body }

/-- E_CONCAT (spec/43_token_encode.md rule R155). -/
def eConcat (f : Flight) : Except Raise Flight := .ok { f with tok := frameToken f.body f.tag }

/-- E_B64 (spec/43_token_encode.md rule R155). -/
def eB64 (f : Flight) : Except Raise Flight := .ok { f with out := b64UrlEncode f.tok }

/-- The phases of ENC. -/
def encPhases (ivsrc tssrc : Bool) (s : State) : List PhaseWork :=
  [(.eAdmit, eAdmit s), (.eTime, eTime tssrc s), (.eIv, eIv ivsrc s), (.eCipher, eCipher s), (.eFrame, eFrame),
    (.eMac, eMac s), (.eConcat, eConcat), (.eB64, eB64)]

/-- What ENC writes on success: OBUF, OLEN and TS_OUT. -/
def encCommit (f : Flight) (s : State) : State := { s.putOutput f.out with tsOut := f.ts }

/-- ENC: produce a token from a plaintext (spec/43_token_encode.md rule R155). One set of port draws belongs to the command
(spec/10_state.md rule R45). -/
def execEnc (ivsrc tssrc : Bool) (s : State) : Host.Outcome State Fault Refusal :=
  .next (s.takeDraws.complete (encPhases ivsrc tssrc s) encCommit)

end Sys2Proof.Machine
end

