-- ==== Sys2Proof/Machine/Transcode.lean ====
section
/-! DEFINITION. The transcoder's commands B64E and B64D (spec/45_base64url.md rules R183, R184). -/

namespace Sys2Proof.Machine

/-- B_ADMIT of B64E (spec/45_base64url.md rule R183). -/
def b64eAdmit (s : State) (f : Flight) : Except Raise Flight :=
  if s.bufMax < s.ilen.toNat then f.fail .badLength 0
  else if s.bufMax < b64Len s.ilen.toNat then f.fail .overflow 0
  else .ok f

/-- B_ENCODE (spec/45_base64url.md rule R183). -/
def bEncode (s : State) (f : Flight) : Except Raise Flight := .ok { f with out := b64UrlEncode s.input }

/-- B_ADMIT of B64D (spec/45_base64url.md rule R184). -/
def b64dAdmit (s : State) (f : Flight) : Except Raise Flight :=
  if s.bufMax < s.ilen.toNat then f.fail .badLength 0 else .ok f

/-- B_DECODE (spec/45_base64url.md rule R184). -/
def bDecode (s : State) (f : Flight) : Except Raise Flight :=
  match b64UrlDecode s.input with
  | none => f.fail .base64DecodeFailed 0
  | some r => .ok { f with out := r }

/-- The phases of B64E. -/
def b64ePhases (s : State) : List PhaseWork := [(.bAdmit, b64eAdmit s), (.bEncode, bEncode s)]

/-- The phases of B64D. -/
def b64dPhases (s : State) : List PhaseWork := [(.bAdmit, b64dAdmit s), (.bDecode, bDecode s)]

/-- What both write on success: OBUF and OLEN. -/
def transcodeCommit (f : Flight) (s : State) : State := s.putOutput f.out

/-- B64E: encode the input buffer as base64url text (spec/45_base64url.md rule R183). -/
def execB64e (s : State) : Host.Outcome State Fault Refusal := .next (s.complete (b64ePhases s) transcodeCommit)

/-- B64D: decode base64url text in the input buffer (spec/45_base64url.md rule R184). -/
def execB64d (s : State) : Host.Outcome State Fault Refusal := .next (s.complete (b64dPhases s) transcodeCommit)

end Sys2Proof.Machine
end

