-- ==== Sys2Proof/Machine/Dispatch.lean ====
section
/-! DEFINITION. One arm per constructor of Instr: the complete step of each command (spec/30_encoding.md rule R94). -/

namespace Sys2Proof.Machine

def exec (i : Instr) (s : State) : Host.Outcome State Fault Refusal :=
  match i with
  | .keyldRaw => Sys2Proof.Machine.execKeyldRaw s
  | .keyldB64 => Sys2Proof.Machine.execKeyldB64 s
  | .enc ivsrc tssrc => Sys2Proof.Machine.execEnc ivsrc tssrc s
  | .dec => Sys2Proof.Machine.execDec s
  | .b64e => Sys2Proof.Machine.execB64e s
  | .b64d => Sys2Proof.Machine.execB64d s
  | .cteq => Sys2Proof.Machine.execCteq s
  | .srst => Sys2Proof.Machine.execSrst s

end Sys2Proof.Machine
end

