-- ==== Sys2Proof/Machine/Step.lean ====
section
/-! DEFINITION. One step: what arrives from outside is served, or the sequencer moves (spec/00_scope.md rules R13, R14; log entries
1, 3, 11). -/

namespace Sys2Proof.Machine

/-- The complete step of the command in flight: CMD holds it (spec/10_state.md rule R33), and it is an instruction or an illegal
byte (spec/30_encoding.md rule R92). -/
def runCommand (s : State) : Host.Outcome State Fault Refusal :=
  match decode s.cmd with
  | .ok i => exec i s
  | .error _ => execIllegal s

/-- The sequencer's move: nothing in reset or when idle (spec/70_reset_and_hazards.md rule R281), else the complete step. -/
def sequencerMove (s : State) : Host.Outcome State Fault Refusal :=
  if s.rst then .next s else if s.busy then runCommand s else .next s

/-- What the step does with the next arrival. -/
def serve (s : State) : Arrival → Host.Outcome State Fault Refusal
  | .read a => .next (s.hostRead a)
  | .write a b => .next (s.hostWrite a b)
  | .rst level => .next (s.setRst level)
  | .quiet => sequencerMove s

/-- One step: the next arrival is taken and served; where nothing is to come the sequencer moves. -/
def step (s : State) : Host.Outcome State Fault Refusal :=
  match s.arrivals with
  | [] => sequencerMove s.held
  | a :: rest => serve { s.held with arrivals := rest } a

/-- The command byte of an instruction put where the sequencer takes its next command: accepted into CMD
(spec/60_exceptions.md rule R247), with `rst` released and, if anything is still to come from outside, a quiet slot before it,
so that the very next step is the command's complete step (log entry 11). -/
def State.withFetchWord (s : State) (nbits w : Nat) : State :=
  { s.accept (firstByte nbits w) with
    rst := false
    arrivals := if s.arrivals.isEmpty then [] else .quiet :: s.arrivals }

end Sys2Proof.Machine
end

