-- ==== Sys2Proof/Safety.lean ====
section
/-! DEFINITION. What counts as a safe state of FTC, in the terms the statements use: the relations the spec states between elements of
state. Each is a decidable proposition over plain data. -/

namespace Sys2Proof.Machine

/-- BUF_MAX lies in its range (spec/00_scope.md rule R7). -/
abbrev State.ParamOk (s : State) : Prop := 128 ≤ s.bufMax ∧ s.bufMax ≤ 65535

/-- Both buffers are in canonical form and inside their bounds: IBUF has BUF_MAX bytes (spec/10_state.md rule R31), OLEN is at most
BUF_MAX (rule R118) and every OBUF byte at or beyond OLEN is 0x00 (rule R32). -/
abbrev State.BuffersOk (s : State) : Prop :=
  s.ibuf.wf ∧ s.obuf.wf ∧ (∀ c ∈ s.ibuf.cells, c.1 < s.bufMax) ∧ (∀ c ∈ s.obuf.cells, c.1 < s.olen.toNat)
    ∧ s.olen.toNat ≤ s.bufMax

/-- Every output and result flag is as accept leaves it (spec/60_exceptions.md rule R247). -/
abbrev State.OutputsClear (s : State) : Prop :=
  s.olen = 0 ∧ s.obuf = Memory.cleared ∧ s.tsOut = zeroVec 8 ∧ s.hmacOk = false ∧ s.eq = false

/-- PHASE is IDLE exactly when BUSY = 0 (spec/10_state.md rule R34), in flight it is the first phase of the command in CMD
(spec/60_exceptions.md rule R247 sets it at accept; that it stays there until the complete step is log entry 2, DEDUCED), and BUSY
and DONE are never both 1 (spec/10_state.md rule R39). -/
abbrev State.SequencerOk (s : State) : Prop :=
  (s.busy = true ↔ s.phase ≠ .idle) ∧ (s.busy = true → s.phase = firstPhase s.cmd) ∧ (s.busy = true → s.done = false)

/-- With no key loaded SK and EK are all zero (spec/10_state.md rule R24). -/
abbrev State.KeyOk (s : State) : Prop := s.keyValid = false → s.sk = zeroVec 16 ∧ s.ek = zeroVec 16

/-- Results stand only after a successful completion: as long as none has happened, or after an error, every output is clear
(spec/20_memory.md rule R71, spec/60_exceptions.md rules R247, R250); an error stands only after a completion; ERRINFO is
non-zero only with CipherError and AuthError, and always with AuthError (spec/10_state.md rule R37, spec/60_exceptions.md rule
R240). -/
abbrev State.ResultsOk (s : State) : Prop :=
  (s.done = false → s.err = .ok) ∧ (s.err = .ok → s.errInfo = 0) ∧ (s.done = false ∨ s.err ≠ .ok → s.OutputsClear)
    ∧ (s.errInfo ≠ 0 → s.err = .cipherError ∨ s.err = .authError) ∧ (s.err = .authError → s.errInfo ≠ 0)

/-- HMAC_OK is set only by DEC, with a key loaded (spec/10_state.md rules R41, R23); EQ only by CTEQ (rule R42); TS_OUT is non-zero
only after ENC or DEC (rule R30). -/
abbrev State.FlagsOk (s : State) : Prop :=
  (s.hmacOk = true → decode s.cmd = .ok .dec ∧ s.keyValid = true) ∧ (s.eq = true → decode s.cmd = .ok .cteq)
    ∧ (s.tsOut ≠ zeroVec 8 → (decode s.cmd = .ok .dec ∨ s.cmd &&& 0xCF = 0x02) ∧ s.keyValid = true)

/-- While `rst` is asserted the block is in the reset state (spec/70_reset_and_hazards.md rule R280). -/
abbrev State.HeldOk (s : State) : Prop := s.rst = true → s.resetBlock = s

/-- The invariant of the machine: all of the above. -/
structure State.Inv (s : State) : Prop where
  param : s.ParamOk
  buffers : s.BuffersOk
  sequencer : s.SequencerOk
  key : s.KeyOk
  results : s.ResultsOk
  flags : s.FlagsOk
  held : s.HeldOk

/-- A command is in flight and as accept left it, `rst` is released: the state in which the complete step runs
(spec/60_exceptions.md rule R247). -/
abbrev State.InFlight (s : State) (c : Byte) : Prop := s.cmd = c ∧ s.busy = true ∧ s.rst = false

/-- Every element of state has its reset value: the table of spec/10_state.md rule R46 and, for the working registers,
spec/70_reset_and_hazards.md rule R281. -/
structure State.AtReset (s : State) : Prop where
  keys : (∀ j (h : j < 16), s.sk[j] = 0x00 ∧ s.ek[j] = 0x00) ∧ s.keyValid = false
  input : (∀ j, s.ibuf.read j = 0x00) ∧ s.ilen = 0 ∧ s.alen = 0
  iv : (∀ j (h : j < 16), s.iv[j] = 0x00) ∧ s.ivlen = 0
  ts : ∀ j (h : j < 8), s.ts[j] = 0x00
  output : (∀ j, s.obuf.read j = 0x00) ∧ s.olen = 0 ∧ ∀ j (h : j < 8), s.tsOut[j] = 0x00
  control : s.cmd = 0x00 ∧ s.phase = .idle
  flags : s.busy = false ∧ s.done = false ∧ s.hmacOk = false ∧ s.eq = false
  errors : s.err.code = 0x00 ∧ s.errInfo = 0x00
  status : s.statusByte = 0x00
  working : s.work.tbuf.all (fun b => b == 0x00) = true ∧ (∀ j (h : j < 16), s.work.chain[j] = 0x00)
    ∧ (∀ j (h : j < 32), s.work.tagc[j] = 0x00) ∧ s.work.acc = 0 ∧ s.work.sr = 0 ∧ s.work.lenCtr = 0 ∧ s.work.idxCtr = 0

/-! ### What a command leaves unchanged, and the bookkeeping of a completion -/

/-- The key registers (spec/10_state.md rule R24). -/
structure SameKeys (s t : State) : Prop where
  sk : t.sk = s.sk
  ek : t.ek = s.ek
  keyValid : t.keyValid = s.keyValid

/-- The input registers and every byte of IBUF (spec/10_state.md rule R20). -/
structure SameInputs (s t : State) : Prop where
  ibuf : ∀ j, t.ibuf.read j = s.ibuf.read j
  ibufCells : t.ibuf = s.ibuf
  ilen : t.ilen = s.ilen
  alen : t.alen = s.alen
  iv : t.iv = s.iv
  ivlen : t.ivlen = s.ivlen
  ts : t.ts = s.ts

/-- The output registers and every byte of OBUF. -/
structure SameOutputs (s t : State) : Prop where
  obuf : ∀ j, t.obuf.read j = s.obuf.read j
  obufCells : t.obuf = s.obuf
  olen : t.olen = s.olen
  tsOut : t.tsOut = s.tsOut

/-- BUF_MAX and what belongs to the surroundings of the block, but for the ports. -/
structure SameSurroundings (s t : State) : Prop where
  bufMax : t.bufMax = s.bufMax
  rst : t.rst = s.rst
  arrivals : t.arrivals = s.arrivals
  reads : t.reads = s.reads

/-- Nothing was asked of a port and no draw was taken. -/
structure PortsUntouched (s t : State) : Prop where
  requests : t.requests = s.requests
  answers : t.answers = s.answers

/-- The bookkeeping of every complete step but SRST's (spec/60_exceptions.md rules R249, R250), CMD kept. The count of completed
commands is the model's own field (log entry 21). -/
structure CompletesOnce (s t : State) : Prop where
  done : t.done = true
  busy : t.busy = false
  phase : t.phase = .idle
  cmd : t.cmd = s.cmd
  completed : t.completed = s.completed + 1

/-- A complete step with the error `err` and its payload: ERR, ERRINFO, DONE, BUSY, PHASE, and nothing else
(spec/60_exceptions.md rule R250). What was asked of the ports is left open here. -/
structure EndsInError (s t : State) (err : ErrCode) (info : Byte) : Prop where
  err : t.err = err
  errInfo : t.errInfo = info
  bookkeeping : CompletesOnce s t
  keys : SameKeys s t
  inputs : SameInputs s t
  outputs : SameOutputs s t
  hmacOk : t.hmacOk = s.hmacOk
  eq : t.eq = s.eq
  surroundings : SameSurroundings s t

/-- A complete step without an error (spec/60_exceptions.md rule R249): ERR and ERRINFO stay. -/
structure EndsInSuccess (s t : State) : Prop where
  err : t.err = s.err
  errInfo : t.errInfo = s.errInfo
  bookkeeping : CompletesOnce s t
  inputs : SameInputs s t
  surroundings : SameSurroundings s t

/-- OBUF holds `out`, OLEN its length, and every OBUF byte past it is as before (spec/10_state.md rules R26, R32). -/
structure OutputIs (s t : State) (out : Bytes) : Prop where
  olen : t.olen.toNat = out.length
  bytes : t.obuf.readN 0 out.length = out
  rest : ∀ j, out.length ≤ j → t.obuf.read j = s.obuf.read j

/-! ### The bus -/

/-- The addresses at which a host write stores the byte: the read/write bytes of spec/20_memory.md rule R66 but for CMD, and IBUF
(rule R68). -/
abbrev HostWritable (bufMax : Nat) (a : BusAddr) : Prop :=
  a.toNat ∈ [0x04, 0x05, 0x08, 0x09, 0x0A] ∨ (0x10 ≤ a.toNat ∧ a.toNat < 0x18) ∨ (0x20 ≤ a.toNat ∧ a.toNat < 0x30)
    ∨ (0x10000 ≤ a.toNat ∧ a.toNat < 0x10000 + bufMax)

/-- The addresses at which nothing stands: reserved registers, buffer indices from BUF_MAX on, space 3 (spec/20_memory.md rules
R66, R70). -/
abbrev Unmapped (bufMax : Nat) (a : BusAddr) : Prop :=
  (0x0B ≤ a.toNat ∧ a.toNat < 0x10) ∨ (0x30 ≤ a.toNat ∧ a.toNat < 0x10000)
    ∨ (0x10000 + bufMax ≤ a.toNat ∧ a.toNat < 0x20000) ∨ (0x20000 + bufMax ≤ a.toNat ∧ a.toNat < 0x30000)
    ∨ 0x30000 ≤ a.toNat

/-- The sequencer moves in the next step: nothing, or a quiet slot, comes first. -/
abbrev State.SequencerNext (s : State) : Prop := s.arrivals = [] ∨ s.arrivals.head? = some .quiet

/-- The state from which that step works: a quiet slot is used up. -/
def State.afterSlot (s : State) : State := { s with arrivals := s.arrivals.tail }

/-! ### The ports -/

/-- How many AES blocks a list of requests asks for. -/
def aesCount : List PortRequest → Nat
  | [] => 0
  | .aes _ _ _ :: rest => aesCount rest + 1
  | _ :: rest => aesCount rest

/-- How many SHA-256 block compressions a list of requests takes (spec/48 rule R228). -/
def shaBlocks : List PortRequest → Nat
  | [] => 0
  | .sha m :: rest => shaBlocks rest + (shaPad m).length / 64
  | _ :: rest => shaBlocks rest

/-! ### The values of a token -/

/-- The timestamp bytes of ENC: TS, or the now port's seconds, big-endian (spec/43_token_encode.md rule R155, phase E_TIME). -/
def encStamp (tssrc : Bool) (s : State) : Bytes := if tssrc then s.ts.toList else be 8 s.draws.nowSec.toNat

/-- The IV bytes of ENC: IV, or the rng port's bytes (spec/43_token_encode.md rule R155, phase E_IV). -/
def encVector (ivsrc : Bool) (s : State) : Bytes := if ivsrc then s.iv.toList else s.draws.rngBytes.toList

/-- How many IV bytes ENC was given: IVLEN, or rng_len. -/
def encVectorLen (ivsrc : Bool) (s : State) : Nat := if ivsrc then s.ivlen.toNat else s.draws.rngLen.toNat

end Sys2Proof.Machine
end

