-- ==== Sys2Proof/Certificates/Slice0/Obligations.lean ====
section
/-! DEFINITION. The statements for the provers. Each docstring names the rule it formalises; OBLIGATIONS.json lists them. -/

open Sys2Proof Sys2Proof.Machine

/-! ### Encoding -/

/-- Decoding the byte of a well-formed instruction gives it back, and a byte that decodes to an instruction is the byte that encodes
it (spec/30_encoding.md rules R92, R94). -/
def Obligations.DecodeAndEncodeAgree : Prop :=
  (∀ i : Instr, i.wellFormed = true → decode (encode i) = .ok i)
    ∧ ∀ (c : Byte) (i : Instr), decode c = .ok i → encode i = c

/-- Every row of the opcode table is selected by its mask and match and by nothing else, ENC's flags are bits 4 and 5, and the bytes
that are refused are all but the eleven (spec/30_encoding.md rule R94). -/
def Obligations.DecodeFollowsOpcodeTable : Prop :=
  ∀ c : Byte,
    (decode c = .ok .keyldRaw ↔ c &&& 0xFF = 0x01) ∧ (decode c = .ok .keyldB64 ↔ c &&& 0xFF = 0x11)
      ∧ (∀ ivsrc tssrc, decode c = .ok (.enc ivsrc tssrc) ↔
          c &&& 0xCF = 0x02 ∧ ivsrc = c.getLsbD 4 ∧ tssrc = c.getLsbD 5)
      ∧ (decode c = .ok .dec ↔ c &&& 0xFF = 0x03) ∧ (decode c = .ok .b64e ↔ c &&& 0xFF = 0x04)
      ∧ (decode c = .ok .b64d ↔ c &&& 0xFF = 0x05) ∧ (decode c = .ok .cteq ↔ c &&& 0xFF = 0x06)
      ∧ (decode c = .ok .srst ↔ c &&& 0xFF = 0x0F)
      ∧ ((∃ e, decode c = .error e) ↔
          c.toNat ∉ [0x01, 0x02, 0x03, 0x04, 0x05, 0x06, 0x0F, 0x11, 0x12, 0x22, 0x32])

/-- The decoder refuses exactly the bytes whose fields are not a well-formed command, and names the first thing wrong
(spec/30_encoding.md rules R92, R95). -/
def Obligations.DecoderRefusesIllFormedBytesByName : Prop :=
  ∀ c : Byte,
    ((∃ e, decode c = .error e) ↔ (formatOf c).wellFormed = false)
      ∧ (decode c = .error .zNonzero ↔ (formatOf c).z ≠ 0#2)
      ∧ (decode c = .error .opReserved ↔ (formatOf c).z = 0#2 ∧ (formatOf c).opLegal = false)
      ∧ (decode c = .error .flagSet ↔
          (formatOf c).z = 0#2 ∧ (formatOf c).opLegal = true ∧ (formatOf c).flagsLegal = false)

/-- Bytes written out from the table of spec/30_encoding.md rule R94 decode to what stands there. -/
def Obligations.SampleCommandBytesDecode : Prop :=
  decode 0b00000001#8 = .ok .keyldRaw ∧ decode 0b00010001#8 = .ok .keyldB64 ∧ decode 0b00000010#8 = .ok (.enc false false)
    ∧ decode 0b00010010#8 = .ok (.enc true false) ∧ decode 0b00100010#8 = .ok (.enc false true)
    ∧ decode 0b00110010#8 = .ok (.enc true true) ∧ decode 0b00000011#8 = .ok .dec ∧ decode 0b00000100#8 = .ok .b64e
    ∧ decode 0b00000101#8 = .ok .b64d ∧ decode 0b00000110#8 = .ok .cteq ∧ decode 0b00001111#8 = .ok .srst
    ∧ decode 0b00000000#8 = .error .opReserved ∧ decode 0b00010011#8 = .error .flagSet
    ∧ decode 0b01000010#8 = .error .zNonzero

/-! ### The step -/

/-- When the sequencer moves next, a command is in flight and its byte decodes to a well-formed instruction, the step is that
instruction's meaning; the only thing the step adds is that a quiet slot is used up (spec/10_state.md rule R33,
spec/30_encoding.md rule R92; that slots exist is the model's choice, log entry 3). -/
def Obligations.StepRunsTheDecodedCommand : Prop :=
  ∀ (s : State) (i : Instr), decode s.cmd = .ok i → i.wellFormed = true → s.busy = true → s.rst = false → s.SequencerNext →
    step s = exec i s.afterSlot

/-- Idle, the sequencer does nothing: it waits for a CMD write (spec/70_reset_and_hazards.md rule R281, last sentence; the quiet slot
is the model's choice, log entry 3). -/
def Obligations.IdleSequencerDoesNothing : Prop :=
  ∀ s : State, s.busy = false → s.rst = false → s.SequencerNext → step s = .next s.afterSlot

/-- The whole of accept, and that a CMD write while busy is dropped (spec/60_exceptions.md rule R247). -/
def Obligations.CmdWriteAccepts : Prop :=
  ∀ (s : State) (c : Byte) (rest : List Arrival), s.arrivals = .write 0x00000 c :: rest → s.rst = false →
    (s.busy = false → ∃ t, step s = .next t
      ∧ t = { s with
          arrivals := rest
          cmd := c
          busy := true
          done := false
          err := .ok
          errInfo := 0x00
          hmacOk := false
          eq := false
          olen := 0
          obuf := t.obuf
          tsOut := t.tsOut
          phase := match decode c with
            | .ok .keyldRaw => .kAdmit
            | .ok .keyldB64 => .kAdmit
            | .ok (.enc _ _) => .eAdmit
            | .ok .dec => .dAdmit
            | .ok .b64e => .bAdmit
            | .ok .b64d => .bAdmit
            | .ok .cteq => .cAdmit
            | .ok .srst => .sReset
            | .error _ => .xIllegal }
      ∧ (∀ j, t.obuf.read j = 0x00) ∧ t.obuf.wf ∧ ∀ j (h : j < 8), t.tsOut[j] = 0x00)
    ∧ (s.busy = true → step s = .next { s with arrivals := rest })

/-- An illegal command byte written while idle is accepted and its complete step ends with IllegalCommand (ERR = 0x10, ERRINFO =
0x00): CMD, ERR, DONE and the clearing by accept, nothing else (spec/47_control.md rule R206; that with nothing arriving the complete
step comes next is the model's choice, log entry 3). -/
def Obligations.IllegalByteEndsWithIllegalCommand : Prop :=
  ∀ (s : State) (c : Byte) (e : Illegal), decode c = .error e → s.arrivals = [.write 0x00000 c] → s.rst = false →
    s.busy = false →
    ∃ u t, step s = .next u ∧ step u = .next t ∧ t.err = .illegalCommand ∧ t.err.code = 0x10 ∧ t.errInfo = 0x00 ∧ t.cmd = c
      ∧ t.done = true ∧ t.busy = false ∧ t.phase = .idle ∧ t.OutputsClear ∧ (∀ j, t.obuf.read j = 0x00)
      ∧ SameKeys s t ∧ SameInputs s t ∧ PortsUntouched s t

/-- While a command is in flight every host write, at any address, changes nothing, and the host reads the cleared results: STATUS
shows BUSY and KEY_VALID alone, ERR, ERRINFO, OLEN, TS_OUT and OBUF are zero, CMD is the byte in flight (spec/20_memory.md rule
R71). -/
def Obligations.BusWhileBusyDropsWritesAndReadsCleared : Prop :=
  ∀ s : State, s.Inv → s.busy = true →
    (∀ a b rest, s.arrivals = .write a b :: rest → step s = .next { s with arrivals := rest })
      ∧ s.busByte 0x00000 = s.cmd ∧ (s.busByte 0x00001).toNat = 1 + 8 * s.keyValid.toNat
      ∧ s.busByte 0x00002 = 0x00 ∧ s.busByte 0x00003 = 0x00 ∧ s.busByte 0x00006 = 0x00 ∧ s.busByte 0x00007 = 0x00
      ∧ (∀ i < 8, s.busByte (BitVec.ofNat 18 (0x18 + i)) = 0x00)
      ∧ ∀ i < s.bufMax, s.busByte (BitVec.ofNat 18 (0x20000 + i)) = 0x00

/-- A host read returns the byte of the address map and changes no state of FTC, at any time, BUSY or not; no address returns a key
byte (spec/20_memory.md rule R67, with the map of rules R65, R66). -/
def Obligations.HostReadReturnsMappedByte : Prop :=
  ∀ s : State, s.ParamOk → s.rst = false →
    (∀ a rest, s.arrivals = .read a :: rest →
      step s = .next { s with arrivals := rest, reads := s.reads ++ [(a, s.busByte a)] })
      ∧ s.busByte 0x00000 = s.cmd ∧ s.busByte 0x00001 = s.statusByte ∧ s.busByte 0x00002 = s.err.code
      ∧ s.busByte 0x00003 = s.errInfo
      ∧ (s.busByte 0x00004).toNat * 256 + (s.busByte 0x00005).toNat = s.ilen.toNat
      ∧ (s.busByte 0x00006).toNat * 256 + (s.busByte 0x00007).toNat = s.olen.toNat
      ∧ (s.busByte 0x00008).toNat * 256 + (s.busByte 0x00009).toNat = s.alen.toNat
      ∧ s.busByte 0x0000A = s.ivlen
      ∧ (∀ i (h : i < 8), s.busByte (BitVec.ofNat 18 (0x10 + i)) = s.ts[i])
      ∧ (∀ i (h : i < 8), s.busByte (BitVec.ofNat 18 (0x18 + i)) = s.tsOut[i])
      ∧ (∀ i (h : i < 16), s.busByte (BitVec.ofNat 18 (0x20 + i)) = s.iv[i])
      ∧ (∀ i < s.bufMax, s.busByte (BitVec.ofNat 18 (0x10000 + i)) = s.ibuf.read i)
      ∧ (∀ i < s.bufMax, s.busByte (BitVec.ofNat 18 (0x20000 + i)) = s.obuf.read i)
      ∧ (∀ a, Unmapped s.bufMax a → s.busByte a = 0x00)
      ∧ ∀ k1 k2 a, State.busByte { s with sk := k1, ek := k2 } a = s.busByte a

/-- An idle host write at a read/write byte other than CMD stores it: that address then reads the byte, every other address reads as
before, and nothing the bus does not show changes; at every other address but CMD the write is dropped (spec/20_memory.md rules
R66, R68). -/
def Obligations.HostWriteStoresOrIsDropped : Prop :=
  ∀ (s : State) (a : BusAddr) (b : Byte) (rest : List Arrival), s.ParamOk → s.ibuf.wf → s.rst = false → s.busy = false →
    s.arrivals = .write a b :: rest →
    (HostWritable s.bufMax a → ∃ t, step s = .next t ∧ t.busByte a = b
      ∧ (∀ a', a' ≠ a → t.busByte a' = s.busByte a') ∧ t.ibuf.wf
      ∧ (∀ j, 0x10000 + j ≠ a.toNat → t.ibuf.read j = s.ibuf.read j) ∧ SameKeys s t ∧ SameOutputs s t ∧ PortsUntouched s t
      ∧ t.phase = s.phase ∧ t.busy = s.busy ∧ t.done = s.done ∧ t.work = s.work ∧ t.bufMax = s.bufMax ∧ t.rst = s.rst
      ∧ t.arrivals = rest ∧ t.reads = s.reads ∧ t.completed = s.completed)
    ∧ (¬ HostWritable s.bufMax a → a.toNat ≠ 0 → step s = .next { s with arrivals := rest })

/-- STATUS as a byte is `BUSY + 2·DONE + 4·ERRF + 8·KEY_VALID + 16·HMAC_OK + 32·EQ`, ERRF being 1 exactly when ERR ≠ 0
(spec/10_state.md rules R35, R40). -/
def Obligations.StatusByteIsTheSumOfFlags : Prop :=
  ∀ s : State, (s.statusByte.toNat = s.busy.toNat + 2 * s.done.toNat + 4 * s.errf.toNat + 8 * s.keyValid.toNat
      + 16 * s.hmacOk.toNat + 32 * s.eq.toNat)
    ∧ (s.errf = true ↔ s.err.code ≠ 0x00) ∧ s.donePin = s.done

/-! ### Reset -/

/-- After the reset the model starts from, after the reset pin is asserted, whatever the state, and after SRST, every element of
state has the value of the table (spec/10_state.md rule R46). -/
def Obligations.EveryResetGivesTheResetValues : Prop :=
  State.reset.AtReset
    ∧ (∀ (s : State) (rest : List Arrival), s.arrivals = .rst true :: rest → ∃ t, step s = .next t ∧ t.AtReset)
    ∧ ∀ s : State, ∃ t, exec .srst s = .next t ∧ t.AtReset

/-- SRST completes from every state, with a key or without, and leaves the reset state; DONE stays 0; BUF_MAX and what is outside the
block stay (spec/47_control.md rule R205). -/
def Obligations.SrstLeavesTheResetState : Prop :=
  ∀ s : State, ∃ t, exec .srst s = .next t ∧ t.AtReset ∧ t.done = false ∧ t.busy = false ∧ SameSurroundings s t
    ∧ PortsUntouched s t

/-- Asserting the reset pin ends a command in flight without a complete step: the state is the reset state, DONE is not set and no
output shows; while it stays asserted writes change nothing, the sequencer does not move and every read returns the reset value
0x00; its release changes nothing else (spec/70_reset_and_hazards.md rules R280, R282). With the pin asserted this is said of each
kind of arrival; `NothingRunsWhileTheResetPinHolds` says it where nothing more arrives. That the aborted command is not counted, has
asked no port and has taken no draw is the model's choice (log entries 2, 5, 21 and 22): rule R282 speaks of a collaborator call in
progress that is abandoned. -/
def Obligations.ResetPinAbortsAndHolds : Prop :=
  ∀ (s : State) (rest : List Arrival),
    (s.arrivals = .rst true :: rest → ∃ t, step s = .next t ∧ t.AtReset ∧ t.rst = true ∧ t.completed = s.completed
      ∧ PortsUntouched s t ∧ t.bufMax = s.bufMax ∧ t.arrivals = rest ∧ t.reads = s.reads)
    ∧ (s.rst = true →
        (∀ a b, s.arrivals = .write a b :: rest → ∃ t, step s = .next t ∧ t.AtReset ∧ t.rst = true)
        ∧ (∀ a, s.arrivals = .read a :: rest → ∃ t, step s = .next t ∧ t.AtReset ∧ t.reads = s.reads ++ [(a, 0x00)])
        ∧ (s.arrivals = .quiet :: rest → ∃ t, step s = .next t ∧ t.AtReset ∧ t.rst = true)
        ∧ (s.arrivals = .rst false :: rest → ∃ t, step s = .next t ∧ t.AtReset ∧ t.rst = false))

/-! ### Key load -/

/-- KEYLD.RAW with 32 bytes of input and no key loaded completes: the first 16 bytes go to SK, the next 16 to EK, KEY_VALID is set,
and nothing else but the completion changes (spec/42_key_load.md rules R145, R147). -/
def Obligations.KeyldRawLoadsBothHalves : Prop :=
  ∀ s : State, s.ilen.toNat ≤ s.bufMax → s.keyValid = false → s.ilen.toNat = 32 →
    ∃ t, exec .keyldRaw s = .next t ∧ (∀ j (h : j < 16), t.sk[j] = s.ibuf.read j ∧ t.ek[j] = s.ibuf.read (16 + j))
      ∧ t.keyValid = true ∧ EndsInSuccess s t ∧ SameOutputs s t ∧ t.hmacOk = s.hmacOk ∧ t.eq = s.eq ∧ PortsUntouched s t

/-- KEYLD.RAW tests ILEN, then the lock, then the length, and the first failing test is the error; with none it succeeds
(spec/42_key_load.md rule R145, spec/60_exceptions.md rule R251). -/
def Obligations.KeyldRawErrorsInOrder : Prop :=
  ∀ s : State, ∃ t, exec .keyldRaw s = .next t ∧ PortsUntouched s t
    ∧ if s.bufMax < s.ilen.toNat then EndsInError s t .badLength 0x00
      else if s.keyValid = true then EndsInError s t .keyLocked 0x00
      else if s.ilen.toNat ≠ 32 then EndsInError s t .invalidKeyLength 0x00
      else EndsInSuccess s t

/-- KEYLD.B64 with a text that decodes to 32 bytes and no key loaded completes: SK and EK are the decoded halves, and nothing else
but the completion changes; the key does not show in OBUF (spec/42_key_load.md rules R146, R147). -/
def Obligations.KeyldB64LoadsDecodedHalves : Prop :=
  ∀ (s : State) (raw : Bytes), s.ilen.toNat ≤ s.bufMax → s.keyValid = false → b64UrlDecode s.input = some raw →
    raw.length = 32 →
    ∃ t, exec .keyldB64 s = .next t ∧ t.sk.toList = raw.take 16 ∧ t.ek.toList = raw.drop 16
      ∧ t.keyValid = true ∧ EndsInSuccess s t ∧ SameOutputs s t ∧ t.hmacOk = s.hmacOk ∧ t.eq = s.eq ∧ PortsUntouched s t

/-- KEYLD.B64 tests ILEN, then the lock, then the format, then the decoded length (spec/42_key_load.md rule R146,
spec/60_exceptions.md rule R251). -/
def Obligations.KeyldB64ErrorsInOrder : Prop :=
  ∀ s : State, ∃ t, exec .keyldB64 s = .next t ∧ PortsUntouched s t
    ∧ if s.bufMax < s.ilen.toNat then EndsInError s t .badLength 0x00
      else if s.keyValid = true then EndsInError s t .keyLocked 0x00
      else match b64UrlDecode s.input with
        | none => EndsInError s t .invalidKeyFormat 0x00
        | some raw => if raw.length ≠ 32 then EndsInError s t .invalidKeyLength 0x00 else EndsInSuccess s t

/-- For every 32 bytes, KEYLD.B64 on their encoding and KEYLD.RAW on themselves leave the same SK and EK (spec/42_key_load.md rule
R148). -/
def Obligations.BothKeyFormsLoadTheSameKey : Prop :=
  ∀ (raw : Bytes) (s u : State), raw.length = 32 → s.input = b64UrlEncode raw → u.input = raw →
    s.ilen.toNat ≤ s.bufMax → u.ilen.toNat ≤ u.bufMax → s.keyValid = false → u.keyValid = false →
    ∃ t v, exec .keyldB64 s = .next t ∧ exec .keyldRaw u = .next v ∧ t.sk = v.sk ∧ t.ek = v.ek ∧ t.keyValid = true
      ∧ v.keyValid = true

/-- Once a key is loaded no step changes SK, EK or KEY_VALID but the reset pin and the complete step of SRST (spec/10_state.md rule
R24). -/
def Obligations.LoadedKeyIsHeldUntilReset : Prop :=
  ∀ s t : State, step s = .next t → s.keyValid = true → s.rst = false → s.arrivals.head? ≠ some (.rst true) →
    ¬ (s.SequencerNext ∧ s.busy = true ∧ decode s.cmd = .ok .srst) → SameKeys s t

/-! ### Token encode -/

/-- ENC, in each of its four flag forms, completes when the input fits, a key is loaded, the token fits, 16 IV bytes were given and no
collaborator failed: OBUF holds the base64url text of `0x80 ‖ timestamp ‖ IV ‖ ciphertext ‖ tag`, OLEN = B64Len(TokenLen(ILEN)),
TS_OUT the timestamp; the ports are asked once each as the flags say, one AES block after the other and two hashes; nothing else
changes (spec/43_token_encode.md rule R155). That the command uses up one record of draws is the model's choice (log entry 5). -/
def Obligations.EncMakesTheToken : Prop :=
  ∀ (ivsrc tssrc : Bool) (s : State), s.ParamOk → s.obuf.wf → s.ilen.toNat ≤ s.bufMax → s.keyValid = true →
    b64Len (tokenLen s.ilen.toNat) ≤ s.bufMax → encVectorLen ivsrc s = 16 → s.draws.aesFault = 0x00 →
    s.draws.macFault = 0x00 →
    let ts := encStamp tssrc s
    let iv := encVector ivsrc s
    let ct := encryptPayload s.ek.toList iv s.input
    let body := [0x80] ++ ts ++ iv ++ ct
    let txt := b64UrlEncode (body ++ hmacSha256 s.sk.toList body)
    ∃ t, exec (.enc ivsrc tssrc) s = .next t ∧ OutputIs s t txt ∧ t.olen.toNat = b64Len (tokenLen s.ilen.toNat)
      ∧ t.tsOut.toList = ts ∧ EndsInSuccess s t ∧ SameKeys s t ∧ t.hmacOk = s.hmacOk ∧ t.eq = s.eq
      ∧ t.answers = s.answers.tail
      ∧ t.requests = s.requests ++ ((if tssrc then [] else [.now]) ++ (if ivsrc then [] else [.rng 16])
          ++ encryptAsks s.ek.toList iv s.input ++ tagAsks s.sk.toList body)

/-- ENC's tests in their order, each with its error and payload; with none failing it succeeds (spec/43_token_encode.md rule R155,
spec/60_exceptions.md rule R251). That ENC uses up one record of draws on every path, also where it ends before a port's answer is
looked at, is the model's choice (log entry 5). -/
def Obligations.EncErrorsInOrder : Prop :=
  ∀ (ivsrc tssrc : Bool) (s : State), ∃ t, exec (.enc ivsrc tssrc) s = .next t ∧ t.answers = s.answers.tail
    ∧ if s.bufMax < s.ilen.toNat then EndsInError s t .badLength 0x00 ∧ t.requests = s.requests
      else if s.keyValid = false then EndsInError s t .noKey 0x00 ∧ t.requests = s.requests
      else if s.bufMax < b64Len (tokenLen s.ilen.toNat) then EndsInError s t .overflow 0x00 ∧ t.requests = s.requests
      else if encVectorLen ivsrc s ≠ 16 then EndsInError s t .invalidIV 0x00
      else if s.draws.aesFault ≠ 0x00 then EndsInError s t .cipherError s.draws.aesFault
      else if s.draws.macFault ≠ 0x00 then EndsInError s t .authError s.draws.macFault
      else EndsInSuccess s t

/-- The whole result of ENC is a function of the command byte, SK, EK, KEY_VALID, the input bytes and their count, TS or now_sec, IV
and IVLEN or the rng answer, and the two fault codes; with ENC.DET no port but the faults is left (spec/43_token_encode.md rule
R156; BUF_MAX is a parameter of the instance, spec/10_state.md rule R45). The states compared are as accept leaves them. -/
def Obligations.EncIsAFunctionOfItsInputs : Prop :=
  ∀ (ivsrc tssrc : Bool) (s u : State), s.bufMax = u.bufMax → s.sk = u.sk → s.ek = u.ek → s.keyValid = u.keyValid →
    s.ilen = u.ilen → s.input = u.input → encStamp tssrc s = encStamp tssrc u → encVector ivsrc s = encVector ivsrc u →
    encVectorLen ivsrc s = encVectorLen ivsrc u → s.draws.aesFault = u.draws.aesFault →
    s.draws.macFault = u.draws.macFault → s.OutputsClear → u.OutputsClear → s.err = .ok → u.err = .ok → s.errInfo = 0 →
    u.errInfo = 0 →
    ∃ t v, exec (.enc ivsrc tssrc) s = .next t ∧ exec (.enc ivsrc tssrc) u = .next v ∧ t.obuf = v.obuf ∧ t.olen = v.olen
      ∧ t.tsOut = v.tsOut ∧ t.err = v.err ∧ t.errInfo = v.errInfo ∧ t.statusByte = v.statusByte ∧ SameKeys t v

/-! ### Token decode -/

/-- DEC completes on a token that decodes, has a valid length and version and decrypts to good padding, authentic or not: OBUF holds
the plaintext, TS_OUT the token's timestamp, and HMAC_OK tells whether the recomputed tag is the token's last 32 bytes; a mismatch
is no error; nothing else changes (spec/44_token_decode.md rule R165, spec/10_state.md rule R41). That the command uses up one
record of draws is the model's choice (log entry 5). -/
def Obligations.DecDeliversPlaintextAndFlag : Prop :=
  ∀ (s : State) (tok p : Bytes), s.ParamOk → s.obuf.wf → s.ilen.toNat ≤ s.bufMax → s.keyValid = true →
    b64UrlDecode s.input = some tok → 73 ≤ tok.length → (tok.length - 57) % 16 = 0 → tok.head? = some 0x80 →
    s.draws.aesFault = 0x00 → s.draws.macFault = 0x00 →
    decryptPayload s.ek.toList (slice tok 9 25) (slice tok 25 (tok.length - 32)) = some p →
    let body := tok.take (tok.length - 32)
    ∃ t, exec .dec s = .next t ∧ OutputIs s t p ∧ t.tsOut.toList = slice tok 1 9
      ∧ (t.hmacOk = true ↔ hmacSha256 s.sk.toList body = tok.drop (tok.length - 32))
      ∧ EndsInSuccess s t ∧ SameKeys s t ∧ t.eq = s.eq ∧ t.answers = s.answers.tail
      ∧ t.requests = s.requests ++ (decryptAsks s.ek.toList (slice tok 25 (tok.length - 32)) ++ tagAsks s.sk.toList body)

/-- DEC's tests in their order, each with its error and payload: transport decode, length, version, port fault, padding, MAC fault;
decryption comes before authentication (spec/44_token_decode.md rule R165, spec/60_exceptions.md rule R251). That DEC uses up one
record of draws on every path, also where it ends before a port's answer is looked at, is the model's choice (log entry 5). -/
def Obligations.DecErrorsInOrder : Prop :=
  ∀ s : State, ∃ t, exec .dec s = .next t ∧ t.answers = s.answers.tail
    ∧ if s.bufMax < s.ilen.toNat then EndsInError s t .badLength 0x00
      else if s.keyValid = false then EndsInError s t .noKey 0x00
      else match b64UrlDecode s.input with
        | none => EndsInError s t .tokenDecodingFailed 0x00
        | some tok =>
          if ¬ (73 ≤ tok.length ∧ (tok.length - 57) % 16 = 0) then EndsInError s t .invalidTokenFormat 0x00
          else if tok.head? ≠ some 0x80 then EndsInError s t .unknownVersion 0x00
          else if s.draws.aesFault ≠ 0x00 then EndsInError s t .cipherError s.draws.aesFault
          else match decryptPayload s.ek.toList (slice tok 9 25) (slice tok 25 (tok.length - 32)) with
            | none => EndsInError s t .cipherError 0x00
            | some _ => if s.draws.macFault ≠ 0x00 then EndsInError s t .authError s.draws.macFault else EndsInSuccess s t

/-- A token shorter than 73 bytes or with a misaligned ciphertext is rejected with InvalidTokenFormat before any cryptographic
operation: nothing is asked of the AES or SHA-256 port, and the outcome is the same whatever the ports would answer
(spec/44_token_decode.md rule R168). -/
def Obligations.BadTokenLengthRejectedBeforeCrypto : Prop :=
  ∀ (s : State) (tok : Bytes), s.ilen.toNat ≤ s.bufMax → s.keyValid = true → b64UrlDecode s.input = some tok →
    tok.length < 73 ∨ (tok.length - 57) % 16 ≠ 0 →
    ∃ t, exec .dec s = .next t ∧ EndsInError s t .invalidTokenFormat 0x00 ∧ t.requests = s.requests

/-- A token of valid length whose first byte is not 0x80 is rejected with UnknownVersion, and no cryptographic operation runs
(spec/44_token_decode.md rule R169). -/
def Obligations.WrongVersionRejectedBeforeCrypto : Prop :=
  ∀ (s : State) (tok : Bytes), s.ilen.toNat ≤ s.bufMax → s.keyValid = true → b64UrlDecode s.input = some tok →
    73 ≤ tok.length → (tok.length - 57) % 16 = 0 → tok.head? ≠ some 0x80 →
    ∃ t, exec .dec s = .next t ∧ EndsInError s t .unknownVersion 0x00 ∧ t.requests = s.requests

/-- What ENC made, DEC opens: run under the same key on the text ENC left, with no fault, DEC completes without error, with the same
plaintext, HMAC_OK set and the same timestamp (spec/44_token_decode.md rule R166). -/
def Obligations.DecOpensWhatEncMade : Prop :=
  ∀ (ivsrc tssrc : Bool) (s t u : State), s.ParamOk → s.obuf.wf → s.keyValid = true → s.err = .ok →
    exec (.enc ivsrc tssrc) s = .next t → t.err = .ok →
    u.bufMax = s.bufMax → u.obuf.wf → u.sk = s.sk → u.ek = s.ek → u.keyValid = true → u.err = .ok →
    u.ilen = t.olen → u.input = t.obuf.readN 0 t.olen.toNat → u.draws.aesFault = 0x00 → u.draws.macFault = 0x00 →
    ∃ v, exec .dec u = .next v ∧ v.err = .ok ∧ OutputIs u v s.input ∧ v.hmacOk = true ∧ v.tsOut = t.tsOut

/-- A change in the HMAC field alone: if DEC opens a token as authentic, then on a token of the same length and body with another HMAC
field DEC, drawing no fault, completes without error, with HMAC_OK = 0 and the same plaintext and timestamp
(spec/44_token_decode.md rule R167 (a)). -/
def Obligations.ChangedTagClearsTheFlagOnly : Prop :=
  ∀ (s u t : State) (tok tok' : Bytes), s.err = .ok → u = { s with ibuf := u.ibuf, ilen := u.ilen } →
    u.ilen.toNat ≤ u.bufMax → b64UrlDecode s.input = some tok → b64UrlDecode u.input = some tok' →
    tok.length = tok'.length → tok.take (tok.length - 32) = tok'.take (tok'.length - 32) →
    tok.drop (tok.length - 32) ≠ tok'.drop (tok'.length - 32) →
    exec .dec s = .next t → t.err = .ok → t.hmacOk = true →
    ∃ v, exec .dec u = .next v ∧ v.err = .ok ∧ v.hmacOk = false ∧ v.obuf = t.obuf ∧ v.olen = t.olen ∧ v.tsOut = t.tsOut

/-! ### Transcoder and comparator commands -/

/-- B64E completes when the input and its encoding fit: OBUF holds the encoding, OLEN = B64Len(ILEN), nothing else changes
(spec/45_base64url.md rule R183). -/
def Obligations.B64eEncodesTheInput : Prop :=
  ∀ s : State, s.ParamOk → s.obuf.wf → s.ilen.toNat ≤ s.bufMax → b64Len s.ilen.toNat ≤ s.bufMax →
    ∃ t, exec .b64e s = .next t ∧ OutputIs s t (b64UrlEncode s.input) ∧ t.olen.toNat = b64Len s.ilen.toNat
      ∧ EndsInSuccess s t ∧ SameKeys s t ∧ t.hmacOk = s.hmacOk ∧ t.eq = s.eq ∧ t.tsOut = s.tsOut ∧ PortsUntouched s t

/-- B64D completes on a text that fits and decodes: OBUF holds the bytes, OLEN their count, at most `3·ILEN div 4`, nothing else
changes (spec/45_base64url.md rule R184). -/
def Obligations.B64dDecodesTheInput : Prop :=
  ∀ (s : State) (r : Bytes), s.ParamOk → s.obuf.wf → s.ilen.toNat ≤ s.bufMax → b64UrlDecode s.input = some r →
    ∃ t, exec .b64d s = .next t ∧ OutputIs s t r ∧ t.olen.toNat ≤ 3 * s.ilen.toNat / 4
      ∧ EndsInSuccess s t ∧ SameKeys s t ∧ t.hmacOk = s.hmacOk ∧ t.eq = s.eq ∧ t.tsOut = s.tsOut ∧ PortsUntouched s t

/-- The tests of B64E and B64D in their order (spec/45_base64url.md rules R183, R184, spec/60_exceptions.md rule R251). -/
def Obligations.TranscoderErrorsInOrder : Prop :=
  ∀ s : State,
    (∃ t, exec .b64e s = .next t ∧ PortsUntouched s t
      ∧ if s.bufMax < s.ilen.toNat then EndsInError s t .badLength 0x00
        else if s.bufMax < b64Len s.ilen.toNat then EndsInError s t .overflow 0x00
        else EndsInSuccess s t)
    ∧ ∃ t, exec .b64d s = .next t ∧ PortsUntouched s t
      ∧ if s.bufMax < s.ilen.toNat then EndsInError s t .badLength 0x00
        else if b64UrlDecode s.input = none then EndsInError s t .base64DecodeFailed 0x00
        else EndsInSuccess s t

/-- CTEQ completes when ILEN and ALEN are in range: EQ is 1 exactly when the two operands have the same length and the same bytes;
unequal lengths are a result, not an error; nothing else changes (spec/46_ct_compare.md rules R195, R196). -/
def Obligations.CteqComparesTheOperands : Prop :=
  ∀ s : State, s.ilen.toNat ≤ s.bufMax → s.alen.toNat ≤ s.ilen.toNat →
    ∃ t, exec .cteq s = .next t
      ∧ (t.eq = true ↔ s.ilen.toNat = 2 * s.alen.toNat
          ∧ ∀ j < s.alen.toNat, s.ibuf.read j = s.ibuf.read (s.alen.toNat + j))
      ∧ EndsInSuccess s t ∧ SameKeys s t ∧ SameOutputs s t ∧ t.hmacOk = s.hmacOk ∧ PortsUntouched s t

/-- CTEQ's two causes of BadLength, and success otherwise (spec/46_ct_compare.md rule R196, spec/60_exceptions.md rule R245). -/
def Obligations.CteqErrorsInOrder : Prop :=
  ∀ s : State, ∃ t, exec .cteq s = .next t ∧ PortsUntouched s t
    ∧ if s.bufMax < s.ilen.toNat ∨ s.ilen.toNat < s.alen.toNat then EndsInError s t .badLength 0x00 else EndsInSuccess s t

/-! ### Datapath functions -/

/-- `LengthOk` holds exactly of 73, 89, 105, …: `57 + 16·k` for `k ≥ 1` (spec/40_token_framer.md rule R112). -/
def Obligations.LengthOkIsTheLengthInvariant : Prop :=
  (∀ len, lengthOk len = true ↔ 73 ≤ len ∧ (len - 57) % 16 = 0)
    ∧ (∀ len, lengthOk len = true ↔ ∃ k, 1 ≤ k ∧ len = 57 + 16 * k)
    ∧ lengthOk 0 = false ∧ lengthOk 57 = false ∧ lengthOk 72 = false ∧ lengthOk 73 = true ∧ lengthOk 74 = false
    ∧ lengthOk 88 = false ∧ lengthOk 89 = true

/-- The framer's two directions agree: what `Frame` and `Body` put together has `57 + len(ct)` bytes, a valid length, and `Split` takes
it apart again (spec/40_token_framer.md rule R114). -/
def Obligations.SplitUndoesFrame : Prop :=
  ∀ ts iv ct tag : Bytes, ts.length = 8 → iv.length = 16 → 0 < ct.length → ct.length % 16 = 0 → tag.length = 32 →
    tokenBody ts iv ct = [0x80] ++ ts ++ iv ++ ct ∧ frameToken (tokenBody ts iv ct) tag = tokenBody ts iv ct ++ tag
      ∧ (frameToken (tokenBody ts iv ct) tag).length = 57 + ct.length
      ∧ lengthOk (frameToken (tokenBody ts iv ct) tag).length = true
      ∧ splitToken (frameToken (tokenBody ts iv ct) tag)
          = { ver := 0x80, ts := ts, iv := iv, ct := ct, tag := tag, body := tokenBody ts iv ct }

/-- Unpadding takes off exactly the padding: `Pkcs7Unpad(Pkcs7Pad(p)) = Ok(p)`, and whatever unpads well is its result followed by `k`
bytes of value `k`, 1 ≤ k ≤ 16 (spec/41_cbc_hmac_datapath.md rule R126). Rule R126 defines unpadding for lengths that are a positive
multiple of 16; that the same holds of other lengths from 16 on is the model's choice (log entry 15). -/
def Obligations.UnpadChecksAllPaddingBytes : Prop :=
  (∀ p : Bytes, pkcs7Unpad (pkcs7Pad p) = some p)
    ∧ ∀ x p : Bytes, 16 ≤ x.length →
      (pkcs7Unpad x = some p ↔ ∃ k, 1 ≤ k ∧ k ≤ 16 ∧ x = p ++ rep (BitVec.ofNat 8 k) k)

/-- AES-128 decryption and encryption under one key undo each other, both ways, for every key and block
(spec/48_primitives_aes_sha256.md rule R221). -/
def Obligations.AesDecryptionInvertsEncryption : Prop :=
  ∀ k x : Bytes, k.length = 16 → x.length = 16 → aesDec k (aesEnc k x) = x ∧ aesEnc k (aesDec k x) = x

/-- CBC decryption undoes CBC encryption, and with padding the payload comes back (spec/41_cbc_hmac_datapath.md rules R128, R130). -/
def Obligations.CbcDecryptionInvertsEncryption : Prop :=
  ∀ k iv : Bytes, k.length = 16 → iv.length = 16 →
    (∀ x : Bytes, x.length % 16 = 0 → cbcDecrypt k iv (cbcEncrypt k iv x) = x)
      ∧ ∀ p : Bytes, decryptPayload k iv (encryptPayload k iv p) = some p

/-- Every byte string comes back from its base64url text, and some texts are not the text of what they decode to
(spec/45_base64url.md rule R185). -/
def Obligations.Base64DecodeInvertsEncode : Prop :=
  (∀ s : Bytes, b64UrlDecode (b64UrlEncode s) = some s) ∧ ∃ t r, b64UrlDecode t = some r ∧ b64UrlEncode r ≠ t

/-- The comparator is symmetric, says yes to equal operands, and no to operands of unequal length whatever their bytes; as a value it
is equality of byte strings (spec/46_ct_compare.md rules R195, R197). -/
def Obligations.ComparatorIsSymmetricEquality : Prop :=
  (∀ a b : Bytes, ctEq a b = ctEq b a) ∧ (∀ a : Bytes, ctEq a a = true)
    ∧ (∀ a b : Bytes, a.length ≠ b.length → ctEq a b = false) ∧ ∀ a b : Bytes, ctEq a b = true ↔ a = b

/-! ### Whole-machine rules -/

/-- The invariant of Safety.lean holds at reset (spec/10_state.md rule R46). -/
def Obligations.InvariantHoldsAtReset : Prop := State.reset.Inv

/-- Every step from a state with the invariant leaves the invariant: buffers in canonical form and inside their bounds, OBUF zero from
OLEN on, PHASE idle exactly when not busy and in flight the first phase of the command in CMD (that it does not move on before the
complete step is the model's reading, log entry 2), BUSY and DONE never both, no key bytes without KEY_VALID, results clear unless a command
succeeded, ERRINFO only with CipherError and AuthError, HMAC_OK only after DEC and EQ only after CTEQ, the reset state while the
reset pin is asserted (spec/10_state.md rules R24, R30, R32, R34, R37, R39, R41, R42, spec/20_memory.md rule R71). -/
def Obligations.EveryStepKeepsTheInvariant : Prop := ∀ s t : State, s.Inv → step s = .next t → t.Inv

/-- No command but SRST writes an input register or IBUF, and no host write but one to CMD changes an output, the keys or STATUS
(spec/10_state.md rule R20). -/
def Obligations.InputsAndOutputsHaveOneWriter : Prop :=
  (∀ (i : Instr) (s t : State), i ≠ .srst → exec i s = .next t → SameInputs s t)
    ∧ ∀ (s t : State) (a : BusAddr) (b : Byte) (rest : List Arrival), s.arrivals = .write a b :: rest → a.toNat ≠ 0 →
      s.rst = false → step s = .next t →
      SameOutputs s t ∧ SameKeys s t ∧ t.statusByte = s.statusByte ∧ t.err = s.err ∧ t.errInfo = s.errInfo ∧ t.cmd = s.cmd
        ∧ t.phase = s.phase

/-- A command that ends in error changed nothing but ERR, ERRINFO, DONE, BUSY and PHASE of the state after its accept step (and the
working registers, which nothing can observe, and what the ports saw); the next accept finds what it would have found without it
(spec/60_exceptions.md rules R250, R252). -/
def Obligations.ErrorsArePrecise : Prop :=
  ∀ (i : Instr) (s t : State), i ≠ .srst → s.err = .ok → exec i s = .next t → t.err ≠ .ok →
    t = { s with
        err := t.err
        errInfo := t.errInfo
        done := true
        busy := false
        phase := .idle
        work := t.work
        requests := t.requests
        answers := t.answers
        completed := t.completed }
      ∧ ∀ c, t.accept c = { s.accept c with
        work := t.work
        requests := t.requests
        answers := t.answers
        completed := t.completed }

/-- No result depends on what an earlier command left: accept gives the same state whatever the results, flags, CMD and PHASE were, and
no command's complete step depends on the working registers (spec/10_state.md rule R44). -/
def Obligations.NothingHiddenIsCarriedOver : Prop :=
  (∀ (s u : State) (c : Byte), s.accept c = State.accept { s with
      obuf := u.obuf
      olen := u.olen
      tsOut := u.tsOut
      err := u.err
      errInfo := u.errInfo
      done := u.done
      hmacOk := u.hmacOk
      eq := u.eq
      busy := u.busy
      cmd := u.cmd
      phase := u.phase } c)
    ∧ ∀ (i : Instr) (s : State) (w : Working), exec i { s with work := w } = exec i s

/-- A command in flight completes in the sequencer's next move, whatever the inputs and the draws: BUSY falls, PHASE is IDLE, DONE
rises but for SRST (spec/70_reset_and_hazards.md rule R296, first sentence, spec/10_state.md rule R39; that the move is one step
is the model's choice, log entry 3). -/
def Obligations.AcceptedCommandCompletes : Prop :=
  ∀ s : State, s.busy = true → s.rst = false → s.SequencerNext →
    ∃ t, step s = .next t ∧ t.busy = false ∧ t.phase = .idle ∧ (t.done = true ↔ decode s.cmd ≠ .ok .srst)

/-- What ENC and DEC ask of the AES and SHA-256 ports is bounded: at most `ILEN div 16 + 1` blocks and at most
`(ILEN + 25 + 64 + 9) div 64 + 4` block compressions (spec/70_reset_and_hazards.md rule R296; that a phase whose port reports a
fault asks nothing is the model's reading, log entry 8). -/
def Obligations.CryptoWorkIsLinearInInput : Prop :=
  ∀ (i : Instr) (s t : State), exec i s = .next t →
    ∃ asked, t.requests = s.requests ++ asked ∧ aesCount asked ≤ s.ilen.toNat / 16 + 1
      ∧ shaBlocks asked ≤ (s.ilen.toNat + 25 + 64 + 9) / 64 + 4

/-- Every OBUF byte at or beyond OLEN is 0x00 in every state that meets the invariant (spec/10_state.md rule R32, last
sentence). -/
def Obligations.OutputBufferIsZeroPastItsLength : Prop :=
  ∀ s : State, s.Inv → ∀ i, s.olen.toNat ≤ i → s.obuf.read i = 0x00

/-- While the reset pin is asserted the sequencer runs nothing, whether a quiet slot comes or nothing more arrives: the block is in the
reset state, whatever was in flight, and only the slot is used up (spec/70_reset_and_hazards.md rules R280, R282). That nothing is
asked of a port, no draw taken and no completion counted is the model's choice (log entries 2, 5, 21 and 22). -/
def Obligations.NothingRunsWhileTheResetPinHolds : Prop :=
  ∀ s : State, s.rst = true → s.SequencerNext →
    ∃ t, step s = .next t ∧ t.AtReset ∧ SameSurroundings s.afterSlot t ∧ PortsUntouched s t ∧ t.completed = s.completed
end

