-- ==== Sys2Proof/Laws/Bytes.lean ====
section
/-! SUPPORT. Lengths of the byte-string operations and how fixed strings and byte strings turn into each other. -/

namespace Sys2Proof.Machine

@[simp] theorem slice_length (s : Bytes) (i j : Nat) : (slice s i j).length = min (j - i) (s.length - i) := by simp [slice]

@[simp] theorem xorb_length (a b : Bytes) : (xorb a b).length = min a.length b.length := by simp [xorb]

@[simp] theorem rep_length (b : Byte) (n : Nat) : (rep b n).length = n := by simp [rep]

@[simp] theorem be_length (n v : Nat) : (be n v).length = n := by simp [be]

/-- Xor-ing twice with the same string of the same length gives the first string back. -/
theorem xorb_xorb_cancel {a b : Bytes} (h : a.length = b.length) : xorb (xorb a b) b = a := by
  induction a generalizing b with
  | nil => rfl
  | cons x a ih =>
    cases b with
    | nil => simp at h
    | cons y b =>
      have := ih (b := b) (by simpa using h)
      simp only [xorb, List.zipWith_cons_cons, List.cons.injEq] at this ⊢
      exact ⟨by rw [BitVec.xor_assoc, BitVec.xor_self, BitVec.xor_zero], this⟩

theorem toList_toVec {n : Nat} {s : Bytes} (h : s.length = n) : (toVec n s).toList = s := by
  subst h
  simp [toVec, rep]

theorem toVec_toList {n : Nat} (v : Vector Byte n) : toVec n v.toList = v := by
  apply Vector.toList_inj.mp
  exact toList_toVec (by simp)

/-- A slice from the front on, up to an index: the prefix. -/
theorem slice_zero (s : Bytes) (j : Nat) : slice s 0 j = s.take j := by simp [slice]

/-- Two adjoining slices are one. -/
theorem slice_append_slice (s : Bytes) {i j k : Nat} (hij : i ≤ j) (hjk : j ≤ k) : slice s i j ++ slice s j k = slice s i k := by
  have h1 : s.drop j = (s.drop i).drop (j - i) := by rw [List.drop_drop]; congr 1; omega
  have h2 : k - i = (j - i) + (k - j) := by omega
  simp only [slice, h1, h2, List.take_add]

end Sys2Proof.Machine
end

