-- ==== Sys2Proof/Laws/Base64.lean ====
section
/-! SUPPORT. Sizes of the transcoder's results (spec/45_base64url.md rules R182, R186) and the alphabet's two directions (rule
R180). -/

namespace Sys2Proof.Machine

/-- The encoding of `n` bytes has `B64Len(n)` characters (spec/45_base64url.md rule R186). -/
@[simp] theorem b64UrlEncode_length (s : Bytes) : (b64UrlEncode s).length = b64Len s.length := by
  induction s using b64UrlEncode.induct with
  | case1 x y z rest ih => simp only [b64UrlEncode, List.length_cons, ih, b64Len]; omega
  | case2 => simp [b64UrlEncode, b64Len]
  | case3 => simp [b64UrlEncode, b64Len]
  | case4 => simp [b64UrlEncode, b64Len]

theorem dataValues_length {s : Bytes} {vs : List Nat} (h : dataValues s = some vs) : vs.length = s.length := by
  induction s generalizing vs with
  | nil => simp only [dataValues, Option.some.injEq] at h; simp [← h]
  | cons c s ih =>
    simp only [dataValues] at h
    split at h
    · next v ws _ hw => injection h with h; simp [← h, ih hw]
    · cases h

/-- How many bytes a decode that succeeds gives: at most three for four characters (spec/45_base64url.md rule R184: never longer
than `3·ILEN div 4`). -/
theorem b64UrlDecode_length {t r : Bytes} (h : b64UrlDecode t = some r) : r.length ≤ 3 * t.length / 4 := by
  simp only [b64UrlDecode, stdDecode] at h
  split at h
  · cases h
  · next hp =>
    split at h
    · cases h
    · injection h with h
      have hlen : (repad (t.map unsubstitute)).length = t.length + (4 - t.length % 4) % 4 := by simp [repad]
      rw [hlen] at h
      have hpad : (4 - t.length % 4) % 4 ≤ trailingPads (repad (t.map unsubstitute)) := by
        simp only [trailingPads, repad, rep, List.reverse_append, List.reverse_replicate, List.length_map]
        rw [List.takeWhile_append_of_pos (by simp)]
        simp
      rw [← h, be_length]
      omega

/-- Each of the 64 characters of the URL alphabet, after step 1 of the decoder, has its own value (spec/45_base64url.md rule
R180). -/
theorem stdVal_urlChar {v : Nat} (h : v < 64) : stdVal (unsubstitute (urlChar v)) = some v := by
  revert v
  decide

/-- The encoder emits no `=`. -/
theorem urlChar_ne_pad {v : Nat} (h : v < 64) : unsubstitute (urlChar v) ≠ 0x3D := by
  revert v
  decide

end Sys2Proof.Machine
end

