-- ==== Sys2Proof/Laws/Bus.lean ====
section
/-! SUPPORT. Where an address of the host's bus points, said once for each space (spec/20_memory.md rules R65, R66). -/

namespace Sys2Proof.Machine

theorem locateControl_ne (off i : Nat) : locateControl off ≠ .ibuf i ∧ locateControl off ≠ .obuf i := by
  unfold locateControl
  split <;> exact ⟨nofun, nofun⟩

/-- The register space names no place in a buffer. -/
theorem locateReg_ne (off i : Nat) : locateReg off ≠ .ibuf i ∧ locateReg off ≠ .obuf i := by
  unfold locateReg
  split
  · exact locateControl_ne off i
  · repeat' split
    all_goals exact ⟨nofun, nofun⟩

/-- In space 0 the register map decides. -/
theorem locate_reg (bufMax : Nat) {a : BusAddr} (h : a.toNat < 0x10000) : locate bufMax a = locateReg a.toNat := by
  have h1 : a.toNat / 0x10000 = 0 := by omega
  have h2 : a.toNat % 0x10000 = a.toNat := by omega
  simp only [locate, h1, h2, if_true]

/-- An address names byte `i` of IBUF exactly when it is `0x10000 + i` and the byte exists. -/
theorem locate_eq_ibuf {bufMax i : Nat} {a : BusAddr} (hn : bufMax ≤ 65535) :
    locate bufMax a = .ibuf i ↔ i < bufMax ∧ a.toNat = 0x10000 + i := by
  have hr := locateReg_ne (a.toNat % 0x10000) i
  unfold locate
  constructor
  · intro h
    simp only at h
    split at h
    · exact absurd h hr.1
    · split at h
      · split at h
        · injection h with h
          omega
        · cases h
      · split at h
        · split at h <;> cases h
        · cases h
  · rintro ⟨hi, ha⟩
    have h1 : a.toNat / 0x10000 = 1 := by omega
    have h2 : a.toNat % 0x10000 = i := by omega
    simp [h1, h2, hi]

/-- An address names byte `i` of OBUF exactly when it is `0x20000 + i` and the byte exists. -/
theorem locate_eq_obuf {bufMax i : Nat} {a : BusAddr} (hn : bufMax ≤ 65535) :
    locate bufMax a = .obuf i ↔ i < bufMax ∧ a.toNat = 0x20000 + i := by
  have hr := locateReg_ne (a.toNat % 0x10000) i
  unfold locate
  constructor
  · intro h
    simp only at h
    split at h
    · exact absurd h hr.2
    · split at h
      · split at h <;> cases h
      · split at h
        · split at h
          · injection h with h
            omega
          · cases h
        · cases h
  · rintro ⟨hi, ha⟩
    have h1 : a.toNat / 0x10000 = 2 := by omega
    have h2 : a.toNat % 0x10000 = i := by omega
    simp [h1, h2, hi]

/-- Every address outside the registers, IBUF and OBUF is unmapped. -/
theorem locate_unmapped {bufMax : Nat} {a : BusAddr} (hn : bufMax ≤ 65535) (h0 : 0x10000 ≤ a.toNat)
    (h1 : ¬ (0x10000 ≤ a.toNat ∧ a.toNat < 0x10000 + bufMax)) (h2 : ¬ (0x20000 ≤ a.toNat ∧ a.toNat < 0x20000 + bufMax)) :
    locate bufMax a = .unmapped := by
  have hs : a.toNat / 0x10000 ≠ 0 := by omega
  simp only [locate, hs, if_false]
  split
  · rw [if_neg (by omega)]
  · split
    · rw [if_neg (by omega)]
    · rfl

/-- A register offset above the map is unmapped, and so are its reserved bytes. -/
theorem locateReg_unmapped {off : Nat} (h : (0x0B ≤ off ∧ off < 0x10) ∨ 0x30 ≤ off) : locateReg off = .unmapped := by
  unfold locateReg
  rcases h with h | h
  · rw [if_pos h.2]
    unfold locateControl
    split <;> first | rfl | omega
  · rw [if_neg (by omega), dif_neg (by omega), dif_neg (by omega), dif_neg (by omega)]

end Sys2Proof.Machine
end

