-- ==== Sys2Proof/Laws/Datapath.lean ====
section
/-! SUPPORT. Sizes of what the datapath functions give: AES blocks, hashes, tags, padded and encrypted payloads, tokens
(spec/41_cbc_hmac_datapath.md rules R125 to R131, spec/40_token_framer.md rules R114, R115). -/

namespace Sys2Proof.Machine

/-! ### AES -/

theorem keyTemp_length (i : Nat) {prev : Bytes} (h : prev.length = 4) : (keyTemp i prev).length = 4 := by
  match prev, h with
  | [_, _, _, _], _ => unfold keyTemp; split <;> rfl

/-- Every word of the key expansion has four bytes when the words before have. -/
theorem expandWords_sizes {count i : Nat} {ws : List Bytes} (hn : 4 ≤ ws.length) (h : ∀ w ∈ ws, w.length = 4) :
    (expandWords count i ws).length = ws.length + count ∧ ∀ w ∈ expandWords count i ws, w.length = 4 := by
  induction count generalizing i ws with
  | zero => exact ⟨rfl, h⟩
  | succ count ih =>
    have hget : ∀ j, j < ws.length → (ws.getD j []).length = 4 := fun j hj => by
      rw [List.getD_eq_getElem _ _ hj]
      exact h _ (List.getElem_mem hj)
    have ht := keyTemp_length i (hget 0 (by omega))
    have hnew : ∀ w ∈ xorb (ws.getD 3 []) (keyTemp i (ws.getD 0 [])) :: ws, w.length = 4 := by
      intro w hw
      rcases List.mem_cons.mp hw with rfl | hw
      · rw [xorb_length, hget 3 (by omega), ht]
        rfl
      · exact h w hw
    obtain ⟨hl, hs⟩ := ih (i := i + 1) (by simp; omega) hnew
    exact ⟨by simp only [expandWords, hl, List.length_cons]; omega, hs⟩

theorem keyWords_sizes {k : Bytes} (hk : k.length = 16) : (keyWords k).length = 44 ∧ ∀ w ∈ keyWords k, w.length = 4 := by
  have h := expandWords_sizes (count := 40) (i := 4) (ws := [slice k 12 16, slice k 8 12, slice k 4 8, slice k 0 4]) (by simp)
    (by simp [hk])
  exact ⟨by simp [keyWords, h.1], fun w hw => h.2 w (by simpa [keyWords] using hw)⟩

theorem roundKey_length {ws : List Bytes} {r : Nat} (hr : 4 * r + 4 ≤ ws.length) (h : ∀ w ∈ ws, w.length = 4) :
    (roundKey ws r).length = 16 := by
  have h4 : ((ws.drop (4 * r)).take 4).length = 4 := by simp; omega
  have hall : ∀ w ∈ (ws.drop (4 * r)).take 4, w.length = 4 := fun w hw => h w (List.mem_of_mem_drop (List.mem_of_mem_take hw))
  unfold roundKey
  generalize (ws.drop (4 * r)).take 4 = l at h4 hall
  match l, h4 with
  | [a, b, c, d], _ => simp_all

@[simp] theorem subBytes_length (s : Bytes) : (subBytes s).length = s.length := by simp [subBytes]

@[simp] theorem invSubBytes_length (s : Bytes) : (invSubBytes s).length = s.length := by simp [invSubBytes]

@[simp] theorem shiftRows_length (s : Bytes) : (shiftRows s).length = 16 := by simp [shiftRows]

@[simp] theorem invShiftRows_length (s : Bytes) : (invShiftRows s).length = 16 := by simp [invShiftRows]

theorem mixColumns_length {s : Bytes} (h : s.length = 16) : (mixColumns s).length = 16 := by
  match s, h with
  | [_, _, _, _, _, _, _, _, _, _, _, _, _, _, _, _], _ => rfl

theorem invMixColumns_length {s : Bytes} (h : s.length = 16) : (invMixColumns s).length = 16 := by
  match s, h with
  | [_, _, _, _, _, _, _, _, _, _, _, _, _, _, _, _], _ => rfl

theorem encRound_length {ws : List Bytes} {s : Bytes} {r : Nat} (hws : 4 * r + 4 ≤ ws.length) (hw : ∀ w ∈ ws, w.length = 4) :
    (encRound ws s r).length = 16 := by
  simp [encRound, addRoundKey, mixColumns_length, roundKey_length hws hw]

theorem decRound_length {ws : List Bytes} {s : Bytes} {r : Nat} (hws : 4 * r + 4 ≤ ws.length) (hw : ∀ w ∈ ws, w.length = 4) :
    (decRound ws s r).length = 16 := by
  unfold decRound
  exact invMixColumns_length (by simp [addRoundKey, roundKey_length hws hw])

/-- AesEnc gives one block, for a key of 16 bytes. -/
theorem aesEnc_length {k : Bytes} (hk : k.length = 16) (x : Bytes) : (aesEnc k x).length = 16 := by
  obtain ⟨hn, hw⟩ := keyWords_sizes hk
  simp [aesEnc, addRoundKey, roundKey_length (r := 10) (by omega) hw]

/-- AesDec gives one block, for a key of 16 bytes. -/
theorem aesDec_length {k : Bytes} (hk : k.length = 16) (y : Bytes) : (aesDec k y).length = 16 := by
  obtain ⟨hn, hw⟩ := keyWords_sizes hk
  simp [aesDec, addRoundKey, roundKey_length (r := 0) (by omega) hw]

/-! ### SHA-256 and HMAC -/

/-- A hash has 32 bytes (spec/48 rule R228). -/
@[simp] theorem sha256_length (m : Bytes) : (sha256 m).length = 32 := by simp [sha256, hashBytes]

/-- A tag has 32 bytes (spec/41 rule R131). -/
@[simp] theorem macTag_length (sk body : Bytes) : (macTag sk body).length = 32 := by simp [macTag, hmacSha256]

/-- The padded message has a multiple of 64 bytes (spec/48 rule R226). -/
theorem shaPad_length_mod (m : Bytes) : (shaPad m).length % 64 = 0 := by
  simp [shaPad, shaZeros]
  omega

/-- `shaZeros` is the least number that completes the message (spec/48 rule R226). -/
theorem shaZeros_least (n : Nat) : (n + 1 + shaZeros n) % 64 = 56 ∧ ∀ z < shaZeros n, (n + 1 + z) % 64 ≠ 56 := by
  unfold shaZeros
  exact ⟨by omega, fun z hz => by omega⟩

/-! ### PKCS#7 and CBC -/

/-- `len(Pkcs7Pad(p)) = 16·(n div 16 + 1)` (spec/41 rule R125). -/
@[simp] theorem pkcs7Pad_length (p : Bytes) : (pkcs7Pad p).length = 16 * (p.length / 16 + 1) := by
  simp [pkcs7Pad]
  omega

@[simp] theorem blocks16_length (x : Bytes) : (blocks16 x).length = x.length / 16 := by simp [blocks16]

theorem blocks16_sizes {x : Bytes} {b : Bytes} (h : b ∈ blocks16 x) : b.length = 16 := by
  simp only [blocks16, List.mem_map, List.mem_range] at h
  obtain ⟨i, hi, rfl⟩ := h
  rw [slice_length]
  omega

theorem cbcEncBlocks_sizes {k : Bytes} (hk : k.length = 16) (c : Bytes) (xs : List Bytes) :
    (cbcEncBlocks k c xs).length = xs.length ∧ ∀ b ∈ cbcEncBlocks k c xs, b.length = 16 := by
  induction xs generalizing c with
  | nil => simp [cbcEncBlocks]
  | cons x xs ih =>
    obtain ⟨hl, hs⟩ := ih (aesEnc k (xorb x c))
    refine ⟨by simp [cbcEncBlocks, hl], fun b hb => ?_⟩
    rcases List.mem_cons.mp hb with rfl | hb
    · exact aesEnc_length hk _
    · exact hs b hb

theorem cbcDecBlocks_sizes {k : Bytes} (hk : k.length = 16) {c : Bytes} (hc : c.length = 16) {cs : List Bytes}
    (hcs : ∀ b ∈ cs, b.length = 16) :
    (cbcDecBlocks k c cs).length = cs.length ∧ ∀ b ∈ cbcDecBlocks k c cs, b.length = 16 := by
  induction cs generalizing c with
  | nil => simp [cbcDecBlocks]
  | cons d cs ih =>
    obtain ⟨hl, hs⟩ := ih (hcs d (by simp)) (fun b hb => hcs b (by simp [hb]))
    refine ⟨by simp [cbcDecBlocks, hl], fun b hb => ?_⟩
    rcases List.mem_cons.mp hb with rfl | hb
    · simp [aesDec_length hk, hc]
    · exact hs b hb

theorem flatten_length_of_sizes {l : List Bytes} {n : Nat} (h : ∀ b ∈ l, b.length = n) : l.flatten.length = n * l.length := by
  induction l with
  | nil => simp
  | cons b l ih =>
    simp only [List.flatten_cons, List.length_append, List.length_cons, h b (by simp), ih fun c hc => h c (by simp [hc])]
    rw [Nat.mul_add]
    omega

/-- The output of CbcEncrypt has the length of its input, a multiple of 16 (spec/41 rule R127). -/
theorem cbcEncrypt_length {k : Bytes} (hk : k.length = 16) (iv x : Bytes) :
    (cbcEncrypt k iv x).length = 16 * (x.length / 16) := by
  obtain ⟨hl, hs⟩ := cbcEncBlocks_sizes hk iv (blocks16 x)
  rw [cbcEncrypt, flatten_length_of_sizes hs, hl, blocks16_length]

theorem cbcDecrypt_length {k iv : Bytes} (hk : k.length = 16) (hiv : iv.length = 16) (c : Bytes) :
    (cbcDecrypt k iv c).length = 16 * (c.length / 16) := by
  obtain ⟨hl, hs⟩ := cbcDecBlocks_sizes hk hiv (cs := blocks16 c) fun b hb => blocks16_sizes hb
  rw [cbcDecrypt, flatten_length_of_sizes hs, hl, blocks16_length]

/-- The ciphertext has `16·(len(p) div 16 + 1)` bytes (spec/41 rule R129). -/
theorem encryptPayload_length {ek : Bytes} (hk : ek.length = 16) (iv p : Bytes) :
    (encryptPayload ek iv p).length = 16 * (p.length / 16 + 1) := by
  rw [encryptPayload, cbcEncrypt_length hk, pkcs7Pad_length]
  omega

/-- What unpadding gives is a proper prefix of its input (spec/41 rule R126). -/
theorem pkcs7Unpad_prefix {x p : Bytes} (h : pkcs7Unpad x = some p) :
    ∃ k, 1 ≤ k ∧ k ≤ 16 ∧ p = x.take (x.length - k) := by
  simp only [pkcs7Unpad] at h
  split at h
  · cases h
  · next hk =>
    split at h
    · cases h
    · injection h with h
      exact ⟨(x.getD (x.length - 1) 0).toNat, by omega, by omega, by rw [← h, slice_zero]⟩

/-- The plaintext is shorter than the ciphertext. -/
theorem decryptPayload_length_le {ek iv c p : Bytes} (hk : ek.length = 16) (hiv : iv.length = 16)
    (h : decryptPayload ek iv c = some p) : p.length ≤ c.length := by
  obtain ⟨k, -, -, rfl⟩ := pkcs7Unpad_prefix h
  rw [List.length_take, cbcDecrypt_length hk hiv]
  omega

/-! ### Tokens -/

/-- The token of a plaintext of `n` bytes has `TokenLen(n)` bytes (spec/40_token_framer.md rules R114, R115). -/
theorem frame_length {ts iv ct tag : Bytes} (hts : ts.length = 8) (hiv : iv.length = 16) (htag : tag.length = 32) :
    (frameToken (tokenBody ts iv ct) tag).length = 57 + ct.length := by
  simp only [frameToken, tokenBody, List.length_append, List.length_singleton, hts, hiv, htag]
  omega

end Sys2Proof.Machine
end

