-- ==== Sys2Proof/Laws/Memory.lean ====
section
/-! SUPPORT. The laws of the byte buffers: reading after a write, the canonical form and the bounds that every write keeps, and
that canonical buffers with the same bytes are the same data. -/

namespace Sys2Proof.Machine

theorem readCells_of_lt {l : List Host.Cell} {i : Nat} (h : ∀ c ∈ l, i < c.1) : readCells l i = Memory.unlisted := by
  induction l with
  | nil => rfl
  | cons c l ih =>
    have hc := h c (by simp)
    simp only [readCells]
    rw [if_neg (by omega)]
    exact ih fun d hd => h d (by simp [hd])

theorem readCells_writeCells_same {l : List Host.Cell} (hw : l.Pairwise (fun x y => x.1 < y.1)) (i : Nat) (b : Byte) :
    readCells (writeCells l i b) i = b := by
  induction l with
  | nil => by_cases hb : b = Memory.unlisted <;> simp [writeCells, readCells, hb]
  | cons c l ih =>
    obtain ⟨j, d⟩ := c
    have hl := List.pairwise_cons.mp hw
    by_cases hij : i < j
    · by_cases hb : b = Memory.unlisted
      · simp only [writeCells, if_pos hij, hb]
        exact readCells_of_lt (by
          intro c hc
          rcases List.mem_cons.mp hc with rfl | hc
          · exact hij
          · exact lt_trans hij (hl.1 c hc))
      · simp [writeCells, hij, hb, readCells]
    · by_cases he : i = j
      · by_cases hb : b = Memory.unlisted
        · simp only [writeCells, if_neg hij, if_pos he, hb]
          exact readCells_of_lt (fun c hc => he ▸ hl.1 c hc)
        · simp [writeCells, he, hb, readCells]
      · simp only [writeCells, if_neg hij, if_neg he, readCells, if_neg (Ne.symm he)]
        exact ih hl.2

theorem readCells_writeCells_other (l : List Host.Cell) {i j : Nat} (hij : i ≠ j) (b : Byte) :
    readCells (writeCells l i b) j = readCells l j := by
  induction l with
  | nil => by_cases hb : b = Memory.unlisted <;> simp [writeCells, readCells, hb, hij]
  | cons c l ih =>
    obtain ⟨k, d⟩ := c
    by_cases h1 : i < k
    · by_cases hb : b = Memory.unlisted <;> simp [writeCells, h1, hb, readCells, hij]
    · by_cases h2 : i = k
      · subst h2
        by_cases hb : b = Memory.unlisted <;> simp [writeCells, hb, readCells, hij]
      · simp only [writeCells, if_neg h1, if_neg h2, readCells, ih]

/-- An entry of the list after a write is the written byte or an entry from before at another index. -/
theorem mem_writeCells {l : List Host.Cell} (hw : l.Pairwise (fun x y => x.1 < y.1)) {i : Nat} {b : Byte} {c : Host.Cell}
    (h : c ∈ writeCells l i b) : (c = (i, b) ∧ b ≠ Memory.unlisted) ∨ (c ∈ l ∧ c.1 ≠ i) := by
  induction l with
  | nil =>
    by_cases hb : b = Memory.unlisted <;> simp [writeCells, hb] at h
    exact .inl ⟨h, hb⟩
  | cons d l ih =>
    obtain ⟨k, v⟩ := d
    have hl := List.pairwise_cons.mp hw
    by_cases h1 : i < k
    · have hne : ∀ e ∈ (k, v) :: l, e.1 ≠ i := by
        intro e he
        rcases List.mem_cons.mp he with rfl | he
        · exact (Nat.ne_of_lt h1).symm
        · exact (Nat.ne_of_lt (lt_trans h1 (hl.1 e he))).symm
      by_cases hb : b = Memory.unlisted
      · simp only [writeCells, if_pos h1, if_pos hb] at h
        exact .inr ⟨h, hne c h⟩
      · simp only [writeCells, if_pos h1, if_neg hb] at h
        rcases List.mem_cons.mp h with rfl | h
        · exact .inl ⟨rfl, hb⟩
        · exact .inr ⟨h, hne c h⟩
    · by_cases h2 : i = k
      · subst h2
        have hne : ∀ e ∈ l, e.1 ≠ i := fun e he => (Nat.ne_of_lt (hl.1 e he)).symm
        by_cases hb : b = Memory.unlisted
        · simp only [writeCells, if_neg h1, if_pos, if_pos hb] at h
          exact .inr ⟨List.mem_cons_of_mem _ h, hne c h⟩
        · simp only [writeCells, if_neg h1, if_pos, if_neg hb] at h
          rcases List.mem_cons.mp h with rfl | h
          · exact .inl ⟨rfl, hb⟩
          · exact .inr ⟨List.mem_cons_of_mem _ h, hne c h⟩
      · simp only [writeCells, if_neg h1, if_neg h2] at h
        rcases List.mem_cons.mp h with rfl | h
        · exact .inr ⟨by simp, Ne.symm h2⟩
        · rcases ih hl.2 h with h | ⟨h, hn⟩
          · exact .inl h
          · exact .inr ⟨List.mem_cons_of_mem _ h, hn⟩

theorem writeCells_pairwise {l : List Host.Cell} (hw : l.Pairwise (fun x y => x.1 < y.1)) (i : Nat) (b : Byte) :
    (writeCells l i b).Pairwise (fun x y => x.1 < y.1) := by
  induction l with
  | nil => by_cases hb : b = Memory.unlisted <;> simp [writeCells, hb]
  | cons d l ih =>
    obtain ⟨k, v⟩ := d
    have hl := List.pairwise_cons.mp hw
    by_cases h1 : i < k
    · by_cases hb : b = Memory.unlisted
      · simpa only [writeCells, if_pos h1, if_pos hb] using hw
      · simp only [writeCells, if_pos h1, if_neg hb]
        refine List.pairwise_cons.mpr ⟨?_, hw⟩
        intro e he
        rcases List.mem_cons.mp he with rfl | he
        · exact h1
        · exact lt_trans h1 (hl.1 e he)
    · by_cases h2 : i = k
      · subst h2
        by_cases hb : b = Memory.unlisted
        · simpa only [writeCells, if_neg h1, if_pos, if_pos hb] using hl.2
        · simp only [writeCells, if_neg h1, if_pos, if_neg hb]
          exact List.pairwise_cons.mpr ⟨hl.1, hl.2⟩
      · simp only [writeCells, if_neg h1, if_neg h2]
        refine List.pairwise_cons.mpr ⟨?_, ih hl.2⟩
        intro e he
        rcases mem_writeCells hl.2 he with ⟨rfl, -⟩ | ⟨he, -⟩
        · show k < i
          omega
        · exact hl.1 e he

/-! ### Whole buffers -/

theorem Memory.cleared_wf : Memory.cleared.wf := by simp [Memory.cleared, Memory.wf]

@[simp] theorem Memory.read_cleared (i : Nat) : Memory.cleared.read i = Memory.unlisted := rfl

theorem Memory.read_write_same {m : Memory} (hw : m.wf) (i : Nat) (b : Byte) : (m.write i b).read i = b :=
  readCells_writeCells_same hw.1 i b

theorem Memory.read_write_other (m : Memory) {i j : Nat} (h : i ≠ j) (b : Byte) : (m.write i b).read j = m.read j :=
  readCells_writeCells_other m.cells h b

theorem Memory.write_wf {m : Memory} (hw : m.wf) (i : Nat) (b : Byte) : (m.write i b).wf :=
  ⟨writeCells_pairwise hw.1 i b, fun c hc => by
    rcases mem_writeCells hw.1 hc with ⟨rfl, hb⟩ | ⟨hc, -⟩
    · exact hb
    · exact hw.2 c hc⟩

theorem Memory.write_bounded {m : Memory} (hw : m.wf) {n i : Nat} (hm : ∀ c ∈ m.cells, c.1 < n) (hi : i < n) (b : Byte) :
    ∀ c ∈ (m.write i b).cells, c.1 < n := by
  intro c hc
  rcases mem_writeCells hw.1 hc with ⟨rfl, -⟩ | ⟨hc, -⟩
  · exact hi
  · exact hm c hc

theorem Memory.writeN_wf {m : Memory} (hw : m.wf) (i : Nat) (s : Bytes) : (m.writeN i s).wf := by
  induction s generalizing m i with
  | nil => exact hw
  | cons b s ih => exact ih (Memory.write_wf hw i b) (i + 1)

theorem Memory.writeN_bounded {m : Memory} (hw : m.wf) {n i : Nat} {s : Bytes} (hm : ∀ c ∈ m.cells, c.1 < n)
    (hi : i + s.length ≤ n) : ∀ c ∈ (m.writeN i s).cells, c.1 < n := by
  induction s generalizing m i with
  | nil => exact hm
  | cons b s ih =>
    simp only [List.length_cons] at hi
    exact ih (Memory.write_wf hw i b) (Memory.write_bounded hw hm (by omega) b) (by omega)

theorem Memory.read_writeN_outside (m : Memory) (i : Nat) (s : Bytes) {j : Nat} (h : j < i ∨ i + s.length ≤ j) :
    (m.writeN i s).read j = m.read j := by
  induction s generalizing m i with
  | nil => rfl
  | cons b s ih =>
    simp only [List.length_cons] at h
    simp only [Memory.writeN]
    rw [ih (m.write i b) (i + 1) (by omega)]
    exact Memory.read_write_other m (by omega) b

theorem Memory.read_writeN_inside {m : Memory} (hw : m.wf) (i : Nat) (s : Bytes) {k : Nat} (hk : k < s.length) :
    (m.writeN i s).read (i + k) = s[k] := by
  induction s generalizing m i k with
  | nil => simp at hk
  | cons b s ih =>
    simp only [Memory.writeN]
    cases k with
    | zero =>
      rw [Memory.read_writeN_outside _ _ _ (by omega)]
      exact Memory.read_write_same hw i b
    | succ k =>
      have := ih (m := m.write i b) (Memory.write_wf hw i b) (i + 1) (k := k) (by simpa using hk)
      simpa [Nat.add_assoc, Nat.add_comm 1 k] using this

@[simp] theorem Memory.readN_length (m : Memory) (i n : Nat) : (m.readN i n).length = n := by simp [Memory.readN]

/-- What was written is what is read: `MemRead` after `MemWrite` at the same place. -/
theorem Memory.readN_writeN {m : Memory} (hw : m.wf) (i : Nat) (s : Bytes) : (m.writeN i s).readN i s.length = s := by
  refine List.ext_getElem (by simp) fun k h1 h2 => ?_
  simpa [Memory.readN] using Memory.read_writeN_inside hw i s h2

/-- Outside the listed range an index reads as unlisted. -/
theorem Memory.read_of_bounded {m : Memory} {n i : Nat} (hm : ∀ c ∈ m.cells, c.1 < n) (hi : n ≤ i) :
    m.read i = Memory.unlisted := by
  unfold Memory.read
  generalize m.cells = l at hm
  induction l with
  | nil => rfl
  | cons c l ih =>
    have hc := hm c (by simp)
    simp only [readCells]
    rw [if_neg (by omega)]
    exact ih fun d hd => hm d (by simp [hd])

end Sys2Proof.Machine
end

