-- ==== Sys2Proof/Laws/State.lean ====
section
/-! SUPPORT. One lemma per field per shared update of State, true by rfl, so that no proof unfolds a record update. -/

namespace Sys2Proof.Machine

/-! ### State.accept -/

@[simp] theorem State.accept_sk (s : State) (c : Byte) : (s.accept c).sk = s.sk := rfl
@[simp] theorem State.accept_ek (s : State) (c : Byte) : (s.accept c).ek = s.ek := rfl
@[simp] theorem State.accept_keyValid (s : State) (c : Byte) : (s.accept c).keyValid = s.keyValid := rfl
@[simp] theorem State.accept_ibuf (s : State) (c : Byte) : (s.accept c).ibuf = s.ibuf := rfl
@[simp] theorem State.accept_ilen (s : State) (c : Byte) : (s.accept c).ilen = s.ilen := rfl
@[simp] theorem State.accept_alen (s : State) (c : Byte) : (s.accept c).alen = s.alen := rfl
@[simp] theorem State.accept_iv (s : State) (c : Byte) : (s.accept c).iv = s.iv := rfl
@[simp] theorem State.accept_ivlen (s : State) (c : Byte) : (s.accept c).ivlen = s.ivlen := rfl
@[simp] theorem State.accept_ts (s : State) (c : Byte) : (s.accept c).ts = s.ts := rfl
@[simp] theorem State.accept_obuf (s : State) (c : Byte) : (s.accept c).obuf = Memory.cleared := rfl
@[simp] theorem State.accept_olen (s : State) (c : Byte) : (s.accept c).olen = 0 := rfl
@[simp] theorem State.accept_tsOut (s : State) (c : Byte) : (s.accept c).tsOut = zeroVec 8 := rfl
@[simp] theorem State.accept_cmd (s : State) (c : Byte) : (s.accept c).cmd = c := rfl
@[simp] theorem State.accept_phase (s : State) (c : Byte) : (s.accept c).phase = firstPhase c := rfl
@[simp] theorem State.accept_busy (s : State) (c : Byte) : (s.accept c).busy = true := rfl
@[simp] theorem State.accept_done (s : State) (c : Byte) : (s.accept c).done = false := rfl
@[simp] theorem State.accept_hmacOk (s : State) (c : Byte) : (s.accept c).hmacOk = false := rfl
@[simp] theorem State.accept_eq (s : State) (c : Byte) : (s.accept c).eq = false := rfl
@[simp] theorem State.accept_err (s : State) (c : Byte) : (s.accept c).err = .ok := rfl
@[simp] theorem State.accept_errInfo (s : State) (c : Byte) : (s.accept c).errInfo = 0 := rfl
@[simp] theorem State.accept_work (s : State) (c : Byte) : (s.accept c).work = s.work := rfl
@[simp] theorem State.accept_bufMax (s : State) (c : Byte) : (s.accept c).bufMax = s.bufMax := rfl
@[simp] theorem State.accept_rst (s : State) (c : Byte) : (s.accept c).rst = s.rst := rfl
@[simp] theorem State.accept_arrivals (s : State) (c : Byte) : (s.accept c).arrivals = s.arrivals := rfl
@[simp] theorem State.accept_reads (s : State) (c : Byte) : (s.accept c).reads = s.reads := rfl
@[simp] theorem State.accept_answers (s : State) (c : Byte) : (s.accept c).answers = s.answers := rfl
@[simp] theorem State.accept_requests (s : State) (c : Byte) : (s.accept c).requests = s.requests := rfl
@[simp] theorem State.accept_completed (s : State) (c : Byte) : (s.accept c).completed = s.completed := rfl

/-! ### State.raise -/

@[simp] theorem State.raise_sk (s : State) (e : Raise) : (s.raise e).sk = s.sk := rfl
@[simp] theorem State.raise_ek (s : State) (e : Raise) : (s.raise e).ek = s.ek := rfl
@[simp] theorem State.raise_keyValid (s : State) (e : Raise) : (s.raise e).keyValid = s.keyValid := rfl
@[simp] theorem State.raise_ibuf (s : State) (e : Raise) : (s.raise e).ibuf = s.ibuf := rfl
@[simp] theorem State.raise_ilen (s : State) (e : Raise) : (s.raise e).ilen = s.ilen := rfl
@[simp] theorem State.raise_alen (s : State) (e : Raise) : (s.raise e).alen = s.alen := rfl
@[simp] theorem State.raise_iv (s : State) (e : Raise) : (s.raise e).iv = s.iv := rfl
@[simp] theorem State.raise_ivlen (s : State) (e : Raise) : (s.raise e).ivlen = s.ivlen := rfl
@[simp] theorem State.raise_ts (s : State) (e : Raise) : (s.raise e).ts = s.ts := rfl
@[simp] theorem State.raise_obuf (s : State) (e : Raise) : (s.raise e).obuf = s.obuf := rfl
@[simp] theorem State.raise_olen (s : State) (e : Raise) : (s.raise e).olen = s.olen := rfl
@[simp] theorem State.raise_tsOut (s : State) (e : Raise) : (s.raise e).tsOut = s.tsOut := rfl
@[simp] theorem State.raise_cmd (s : State) (e : Raise) : (s.raise e).cmd = s.cmd := rfl
@[simp] theorem State.raise_phase (s : State) (e : Raise) : (s.raise e).phase = .idle := rfl
@[simp] theorem State.raise_busy (s : State) (e : Raise) : (s.raise e).busy = false := rfl
@[simp] theorem State.raise_done (s : State) (e : Raise) : (s.raise e).done = true := rfl
@[simp] theorem State.raise_hmacOk (s : State) (e : Raise) : (s.raise e).hmacOk = s.hmacOk := rfl
@[simp] theorem State.raise_eq (s : State) (e : Raise) : (s.raise e).eq = s.eq := rfl
@[simp] theorem State.raise_err (s : State) (e : Raise) : (s.raise e).err = e.err := rfl
@[simp] theorem State.raise_errInfo (s : State) (e : Raise) : (s.raise e).errInfo = e.info := rfl
@[simp] theorem State.raise_work (s : State) (e : Raise) : (s.raise e).work = Config.workLeft s.completed := rfl
@[simp] theorem State.raise_bufMax (s : State) (e : Raise) : (s.raise e).bufMax = s.bufMax := rfl
@[simp] theorem State.raise_rst (s : State) (e : Raise) : (s.raise e).rst = s.rst := rfl
@[simp] theorem State.raise_arrivals (s : State) (e : Raise) : (s.raise e).arrivals = s.arrivals := rfl
@[simp] theorem State.raise_reads (s : State) (e : Raise) : (s.raise e).reads = s.reads := rfl
@[simp] theorem State.raise_answers (s : State) (e : Raise) : (s.raise e).answers = s.answers := rfl
@[simp] theorem State.raise_requests (s : State) (e : Raise) : (s.raise e).requests = s.requests ++ e.asked := rfl
@[simp] theorem State.raise_completed (s : State) (e : Raise) : (s.raise e).completed = s.completed + 1 := rfl

/-! ### State.finish -/

@[simp] theorem State.finish_sk (s : State) (asked : List PortRequest) : (s.finish asked).sk = s.sk := rfl
@[simp] theorem State.finish_ek (s : State) (asked : List PortRequest) : (s.finish asked).ek = s.ek := rfl
@[simp] theorem State.finish_keyValid (s : State) (asked : List PortRequest) : (s.finish asked).keyValid = s.keyValid := rfl
@[simp] theorem State.finish_ibuf (s : State) (asked : List PortRequest) : (s.finish asked).ibuf = s.ibuf := rfl
@[simp] theorem State.finish_ilen (s : State) (asked : List PortRequest) : (s.finish asked).ilen = s.ilen := rfl
@[simp] theorem State.finish_alen (s : State) (asked : List PortRequest) : (s.finish asked).alen = s.alen := rfl
@[simp] theorem State.finish_iv (s : State) (asked : List PortRequest) : (s.finish asked).iv = s.iv := rfl
@[simp] theorem State.finish_ivlen (s : State) (asked : List PortRequest) : (s.finish asked).ivlen = s.ivlen := rfl
@[simp] theorem State.finish_ts (s : State) (asked : List PortRequest) : (s.finish asked).ts = s.ts := rfl
@[simp] theorem State.finish_obuf (s : State) (asked : List PortRequest) : (s.finish asked).obuf = s.obuf := rfl
@[simp] theorem State.finish_olen (s : State) (asked : List PortRequest) : (s.finish asked).olen = s.olen := rfl
@[simp] theorem State.finish_tsOut (s : State) (asked : List PortRequest) : (s.finish asked).tsOut = s.tsOut := rfl
@[simp] theorem State.finish_cmd (s : State) (asked : List PortRequest) : (s.finish asked).cmd = s.cmd := rfl
@[simp] theorem State.finish_phase (s : State) (asked : List PortRequest) : (s.finish asked).phase = .idle := rfl
@[simp] theorem State.finish_busy (s : State) (asked : List PortRequest) : (s.finish asked).busy = false := rfl
@[simp] theorem State.finish_done (s : State) (asked : List PortRequest) : (s.finish asked).done = true := rfl
@[simp] theorem State.finish_hmacOk (s : State) (asked : List PortRequest) : (s.finish asked).hmacOk = s.hmacOk := rfl
@[simp] theorem State.finish_eq (s : State) (asked : List PortRequest) : (s.finish asked).eq = s.eq := rfl
@[simp] theorem State.finish_err (s : State) (asked : List PortRequest) : (s.finish asked).err = s.err := rfl
@[simp] theorem State.finish_errInfo (s : State) (asked : List PortRequest) : (s.finish asked).errInfo = s.errInfo := rfl
@[simp] theorem State.finish_work (s : State) (asked : List PortRequest) : (s.finish asked).work = Config.workLeft s.completed := rfl
@[simp] theorem State.finish_bufMax (s : State) (asked : List PortRequest) : (s.finish asked).bufMax = s.bufMax := rfl
@[simp] theorem State.finish_rst (s : State) (asked : List PortRequest) : (s.finish asked).rst = s.rst := rfl
@[simp] theorem State.finish_arrivals (s : State) (asked : List PortRequest) : (s.finish asked).arrivals = s.arrivals := rfl
@[simp] theorem State.finish_reads (s : State) (asked : List PortRequest) : (s.finish asked).reads = s.reads := rfl
@[simp] theorem State.finish_answers (s : State) (asked : List PortRequest) : (s.finish asked).answers = s.answers := rfl
@[simp] theorem State.finish_requests (s : State) (asked : List PortRequest) : (s.finish asked).requests = s.requests ++ asked := rfl
@[simp] theorem State.finish_completed (s : State) (asked : List PortRequest) : (s.finish asked).completed = s.completed + 1 := rfl

/-! ### State.resetBlock -/

@[simp] theorem State.resetBlock_sk (s : State) : (s.resetBlock).sk = zeroVec 16 := rfl
@[simp] theorem State.resetBlock_ek (s : State) : (s.resetBlock).ek = zeroVec 16 := rfl
@[simp] theorem State.resetBlock_keyValid (s : State) : (s.resetBlock).keyValid = false := rfl
@[simp] theorem State.resetBlock_ibuf (s : State) : (s.resetBlock).ibuf = Memory.cleared := rfl
@[simp] theorem State.resetBlock_ilen (s : State) : (s.resetBlock).ilen = 0 := rfl
@[simp] theorem State.resetBlock_alen (s : State) : (s.resetBlock).alen = 0 := rfl
@[simp] theorem State.resetBlock_iv (s : State) : (s.resetBlock).iv = zeroVec 16 := rfl
@[simp] theorem State.resetBlock_ivlen (s : State) : (s.resetBlock).ivlen = 0 := rfl
@[simp] theorem State.resetBlock_ts (s : State) : (s.resetBlock).ts = zeroVec 8 := rfl
@[simp] theorem State.resetBlock_obuf (s : State) : (s.resetBlock).obuf = Memory.cleared := rfl
@[simp] theorem State.resetBlock_olen (s : State) : (s.resetBlock).olen = 0 := rfl
@[simp] theorem State.resetBlock_tsOut (s : State) : (s.resetBlock).tsOut = zeroVec 8 := rfl
@[simp] theorem State.resetBlock_cmd (s : State) : (s.resetBlock).cmd = 0 := rfl
@[simp] theorem State.resetBlock_phase (s : State) : (s.resetBlock).phase = .idle := rfl
@[simp] theorem State.resetBlock_busy (s : State) : (s.resetBlock).busy = false := rfl
@[simp] theorem State.resetBlock_done (s : State) : (s.resetBlock).done = false := rfl
@[simp] theorem State.resetBlock_hmacOk (s : State) : (s.resetBlock).hmacOk = false := rfl
@[simp] theorem State.resetBlock_eq (s : State) : (s.resetBlock).eq = false := rfl
@[simp] theorem State.resetBlock_err (s : State) : (s.resetBlock).err = .ok := rfl
@[simp] theorem State.resetBlock_errInfo (s : State) : (s.resetBlock).errInfo = 0 := rfl
@[simp] theorem State.resetBlock_work (s : State) : (s.resetBlock).work = Working.reset := rfl
@[simp] theorem State.resetBlock_bufMax (s : State) : (s.resetBlock).bufMax = s.bufMax := rfl
@[simp] theorem State.resetBlock_rst (s : State) : (s.resetBlock).rst = s.rst := rfl
@[simp] theorem State.resetBlock_arrivals (s : State) : (s.resetBlock).arrivals = s.arrivals := rfl
@[simp] theorem State.resetBlock_reads (s : State) : (s.resetBlock).reads = s.reads := rfl
@[simp] theorem State.resetBlock_answers (s : State) : (s.resetBlock).answers = s.answers := rfl
@[simp] theorem State.resetBlock_requests (s : State) : (s.resetBlock).requests = s.requests := rfl
@[simp] theorem State.resetBlock_completed (s : State) : (s.resetBlock).completed = s.completed := rfl

/-! ### State.putOutput -/

@[simp] theorem State.putOutput_sk (s : State) (out : Bytes) : (s.putOutput out).sk = s.sk := rfl
@[simp] theorem State.putOutput_ek (s : State) (out : Bytes) : (s.putOutput out).ek = s.ek := rfl
@[simp] theorem State.putOutput_keyValid (s : State) (out : Bytes) : (s.putOutput out).keyValid = s.keyValid := rfl
@[simp] theorem State.putOutput_ibuf (s : State) (out : Bytes) : (s.putOutput out).ibuf = s.ibuf := rfl
@[simp] theorem State.putOutput_ilen (s : State) (out : Bytes) : (s.putOutput out).ilen = s.ilen := rfl
@[simp] theorem State.putOutput_alen (s : State) (out : Bytes) : (s.putOutput out).alen = s.alen := rfl
@[simp] theorem State.putOutput_iv (s : State) (out : Bytes) : (s.putOutput out).iv = s.iv := rfl
@[simp] theorem State.putOutput_ivlen (s : State) (out : Bytes) : (s.putOutput out).ivlen = s.ivlen := rfl
@[simp] theorem State.putOutput_ts (s : State) (out : Bytes) : (s.putOutput out).ts = s.ts := rfl
@[simp] theorem State.putOutput_obuf (s : State) (out : Bytes) : (s.putOutput out).obuf = s.obuf.writeN 0 out := rfl
@[simp] theorem State.putOutput_olen (s : State) (out : Bytes) : (s.putOutput out).olen = BitVec.ofNat 16 out.length := rfl
@[simp] theorem State.putOutput_tsOut (s : State) (out : Bytes) : (s.putOutput out).tsOut = s.tsOut := rfl
@[simp] theorem State.putOutput_cmd (s : State) (out : Bytes) : (s.putOutput out).cmd = s.cmd := rfl
@[simp] theorem State.putOutput_phase (s : State) (out : Bytes) : (s.putOutput out).phase = s.phase := rfl
@[simp] theorem State.putOutput_busy (s : State) (out : Bytes) : (s.putOutput out).busy = s.busy := rfl
@[simp] theorem State.putOutput_done (s : State) (out : Bytes) : (s.putOutput out).done = s.done := rfl
@[simp] theorem State.putOutput_hmacOk (s : State) (out : Bytes) : (s.putOutput out).hmacOk = s.hmacOk := rfl
@[simp] theorem State.putOutput_eq (s : State) (out : Bytes) : (s.putOutput out).eq = s.eq := rfl
@[simp] theorem State.putOutput_err (s : State) (out : Bytes) : (s.putOutput out).err = s.err := rfl
@[simp] theorem State.putOutput_errInfo (s : State) (out : Bytes) : (s.putOutput out).errInfo = s.errInfo := rfl
@[simp] theorem State.putOutput_work (s : State) (out : Bytes) : (s.putOutput out).work = s.work := rfl
@[simp] theorem State.putOutput_bufMax (s : State) (out : Bytes) : (s.putOutput out).bufMax = s.bufMax := rfl
@[simp] theorem State.putOutput_rst (s : State) (out : Bytes) : (s.putOutput out).rst = s.rst := rfl
@[simp] theorem State.putOutput_arrivals (s : State) (out : Bytes) : (s.putOutput out).arrivals = s.arrivals := rfl
@[simp] theorem State.putOutput_reads (s : State) (out : Bytes) : (s.putOutput out).reads = s.reads := rfl
@[simp] theorem State.putOutput_answers (s : State) (out : Bytes) : (s.putOutput out).answers = s.answers := rfl
@[simp] theorem State.putOutput_requests (s : State) (out : Bytes) : (s.putOutput out).requests = s.requests := rfl
@[simp] theorem State.putOutput_completed (s : State) (out : Bytes) : (s.putOutput out).completed = s.completed := rfl

/-! ### State.takeDraws -/

@[simp] theorem State.takeDraws_sk (s : State) : (s.takeDraws).sk = s.sk := rfl
@[simp] theorem State.takeDraws_ek (s : State) : (s.takeDraws).ek = s.ek := rfl
@[simp] theorem State.takeDraws_keyValid (s : State) : (s.takeDraws).keyValid = s.keyValid := rfl
@[simp] theorem State.takeDraws_ibuf (s : State) : (s.takeDraws).ibuf = s.ibuf := rfl
@[simp] theorem State.takeDraws_ilen (s : State) : (s.takeDraws).ilen = s.ilen := rfl
@[simp] theorem State.takeDraws_alen (s : State) : (s.takeDraws).alen = s.alen := rfl
@[simp] theorem State.takeDraws_iv (s : State) : (s.takeDraws).iv = s.iv := rfl
@[simp] theorem State.takeDraws_ivlen (s : State) : (s.takeDraws).ivlen = s.ivlen := rfl
@[simp] theorem State.takeDraws_ts (s : State) : (s.takeDraws).ts = s.ts := rfl
@[simp] theorem State.takeDraws_obuf (s : State) : (s.takeDraws).obuf = s.obuf := rfl
@[simp] theorem State.takeDraws_olen (s : State) : (s.takeDraws).olen = s.olen := rfl
@[simp] theorem State.takeDraws_tsOut (s : State) : (s.takeDraws).tsOut = s.tsOut := rfl
@[simp] theorem State.takeDraws_cmd (s : State) : (s.takeDraws).cmd = s.cmd := rfl
@[simp] theorem State.takeDraws_phase (s : State) : (s.takeDraws).phase = s.phase := rfl
@[simp] theorem State.takeDraws_busy (s : State) : (s.takeDraws).busy = s.busy := rfl
@[simp] theorem State.takeDraws_done (s : State) : (s.takeDraws).done = s.done := rfl
@[simp] theorem State.takeDraws_hmacOk (s : State) : (s.takeDraws).hmacOk = s.hmacOk := rfl
@[simp] theorem State.takeDraws_eq (s : State) : (s.takeDraws).eq = s.eq := rfl
@[simp] theorem State.takeDraws_err (s : State) : (s.takeDraws).err = s.err := rfl
@[simp] theorem State.takeDraws_errInfo (s : State) : (s.takeDraws).errInfo = s.errInfo := rfl
@[simp] theorem State.takeDraws_work (s : State) : (s.takeDraws).work = s.work := rfl
@[simp] theorem State.takeDraws_bufMax (s : State) : (s.takeDraws).bufMax = s.bufMax := rfl
@[simp] theorem State.takeDraws_rst (s : State) : (s.takeDraws).rst = s.rst := rfl
@[simp] theorem State.takeDraws_arrivals (s : State) : (s.takeDraws).arrivals = s.arrivals := rfl
@[simp] theorem State.takeDraws_reads (s : State) : (s.takeDraws).reads = s.reads := rfl
@[simp] theorem State.takeDraws_answers (s : State) : (s.takeDraws).answers = s.answers.tail := rfl
@[simp] theorem State.takeDraws_requests (s : State) : (s.takeDraws).requests = s.requests := rfl
@[simp] theorem State.takeDraws_completed (s : State) : (s.takeDraws).completed = s.completed := rfl

/-! ### State.hostRead -/

@[simp] theorem State.hostRead_sk (s : State) (a : BusAddr) : (s.hostRead a).sk = s.sk := rfl
@[simp] theorem State.hostRead_ek (s : State) (a : BusAddr) : (s.hostRead a).ek = s.ek := rfl
@[simp] theorem State.hostRead_keyValid (s : State) (a : BusAddr) : (s.hostRead a).keyValid = s.keyValid := rfl
@[simp] theorem State.hostRead_ibuf (s : State) (a : BusAddr) : (s.hostRead a).ibuf = s.ibuf := rfl
@[simp] theorem State.hostRead_ilen (s : State) (a : BusAddr) : (s.hostRead a).ilen = s.ilen := rfl
@[simp] theorem State.hostRead_alen (s : State) (a : BusAddr) : (s.hostRead a).alen = s.alen := rfl
@[simp] theorem State.hostRead_iv (s : State) (a : BusAddr) : (s.hostRead a).iv = s.iv := rfl
@[simp] theorem State.hostRead_ivlen (s : State) (a : BusAddr) : (s.hostRead a).ivlen = s.ivlen := rfl
@[simp] theorem State.hostRead_ts (s : State) (a : BusAddr) : (s.hostRead a).ts = s.ts := rfl
@[simp] theorem State.hostRead_obuf (s : State) (a : BusAddr) : (s.hostRead a).obuf = s.obuf := rfl
@[simp] theorem State.hostRead_olen (s : State) (a : BusAddr) : (s.hostRead a).olen = s.olen := rfl
@[simp] theorem State.hostRead_tsOut (s : State) (a : BusAddr) : (s.hostRead a).tsOut = s.tsOut := rfl
@[simp] theorem State.hostRead_cmd (s : State) (a : BusAddr) : (s.hostRead a).cmd = s.cmd := rfl
@[simp] theorem State.hostRead_phase (s : State) (a : BusAddr) : (s.hostRead a).phase = s.phase := rfl
@[simp] theorem State.hostRead_busy (s : State) (a : BusAddr) : (s.hostRead a).busy = s.busy := rfl
@[simp] theorem State.hostRead_done (s : State) (a : BusAddr) : (s.hostRead a).done = s.done := rfl
@[simp] theorem State.hostRead_hmacOk (s : State) (a : BusAddr) : (s.hostRead a).hmacOk = s.hmacOk := rfl
@[simp] theorem State.hostRead_eq (s : State) (a : BusAddr) : (s.hostRead a).eq = s.eq := rfl
@[simp] theorem State.hostRead_err (s : State) (a : BusAddr) : (s.hostRead a).err = s.err := rfl
@[simp] theorem State.hostRead_errInfo (s : State) (a : BusAddr) : (s.hostRead a).errInfo = s.errInfo := rfl
@[simp] theorem State.hostRead_work (s : State) (a : BusAddr) : (s.hostRead a).work = s.work := rfl
@[simp] theorem State.hostRead_bufMax (s : State) (a : BusAddr) : (s.hostRead a).bufMax = s.bufMax := rfl
@[simp] theorem State.hostRead_rst (s : State) (a : BusAddr) : (s.hostRead a).rst = s.rst := rfl
@[simp] theorem State.hostRead_arrivals (s : State) (a : BusAddr) : (s.hostRead a).arrivals = s.arrivals := rfl
@[simp] theorem State.hostRead_reads (s : State) (a : BusAddr) : (s.hostRead a).reads = s.reads ++ [(a, s.busByte a)] := rfl
@[simp] theorem State.hostRead_answers (s : State) (a : BusAddr) : (s.hostRead a).answers = s.answers := rfl
@[simp] theorem State.hostRead_requests (s : State) (a : BusAddr) : (s.hostRead a).requests = s.requests := rfl
@[simp] theorem State.hostRead_completed (s : State) (a : BusAddr) : (s.hostRead a).completed = s.completed := rfl

end Sys2Proof.Machine
end

