-- ==== Sys2Proof/Laws/Commands.lean ====
section
/-! SUPPORT. What the shared operations behind the commands can do, said once: the run of phases, the complete step, and for each
command when its phases pass and what they then hand to the commit. -/

namespace Sys2Proof.Machine

/-! ### The run of phases -/

/-- A run of phases that passes went through every phase: the first one passed and the rest ran on from there. -/
theorem runPhases_ok_cons {p : PhaseWork} {ps : List PhaseWork} {f g : Flight} :
    runPhases (p :: ps) f = .ok g ↔ ∃ f', p.2 f = .ok f' ∧ runPhases ps f' = .ok g := by
  obtain ⟨n, work⟩ := p
  simp only [runPhases]
  cases work f <;> simp

/-- A run that fails failed in its first phase, or that one passed and the rest failed: the first failing phase decides
(spec/60_exceptions.md rule R251). -/
theorem runPhases_error_cons {p : PhaseWork} {ps : List PhaseWork} {f : Flight} {e : Raise} :
    runPhases (p :: ps) f = .error e ↔ p.2 f = .error e ∨ ∃ f', p.2 f = .ok f' ∧ runPhases ps f' = .error e := by
  obtain ⟨n, work⟩ := p
  simp only [runPhases]
  cases work f <;> simp

/-- What the complete step of a command can do: record the error its phases raised, or make the command's writes and finish. -/
theorem complete_cases (s : State) (phases : List PhaseWork) (commit : Flight → State → State) :
    (∃ e, runPhases phases Flight.start = .error e ∧ s.complete phases commit = s.raise e)
      ∨ ∃ f, runPhases phases Flight.start = .ok f ∧ s.complete phases commit = (commit f s).finish f.asked := by
  unfold State.complete
  cases h : runPhases phases Flight.start with
  | error e => exact .inl ⟨e, rfl, rfl⟩
  | ok f => exact .inr ⟨f, rfl, rfl⟩

theorem complete_of_error {s : State} {phases : List PhaseWork} {commit : Flight → State → State} {e : Raise}
    (h : runPhases phases Flight.start = .error e) : s.complete phases commit = s.raise e := by
  simp [State.complete, h]

theorem complete_of_ok {s : State} {phases : List PhaseWork} {commit : Flight → State → State} {f : Flight}
    (h : runPhases phases Flight.start = .ok f) : s.complete phases commit = (commit f s).finish f.asked := by
  simp [State.complete, h]

/-- Every command completes: exec answers a next state on every path. -/
theorem exec_answers_next (i : Instr) (s : State) : ∃ t, exec i s = .next t := by
  cases i <;> exact ⟨_, rfl⟩

/-! ### Frames of the shared endings -/

theorem raise_endsInError (s : State) (e : Raise) : EndsInError s (s.raise e) e.err e.info :=
  ⟨rfl, rfl, ⟨rfl, rfl, rfl, rfl, rfl⟩, ⟨rfl, rfl, rfl⟩, ⟨fun _ => rfl, rfl, rfl, rfl, rfl, rfl, rfl⟩,
    ⟨fun _ => rfl, rfl, rfl, rfl⟩, rfl, rfl, ⟨rfl, rfl, rfl, rfl⟩⟩

/-- Taking the draws of a command changes nothing that its end in error leaves. -/
theorem EndsInError.of_takeDraws {s t : State} {err : ErrCode} {info : Byte} (h : EndsInError s.takeDraws t err info) :
    EndsInError s t err info :=
  ⟨h.err, h.errInfo, ⟨h.bookkeeping.done, h.bookkeeping.busy, h.bookkeeping.phase, h.bookkeeping.cmd, h.bookkeeping.completed⟩,
    ⟨h.keys.sk, h.keys.ek, h.keys.keyValid⟩,
    ⟨h.inputs.ibuf, h.inputs.ibufCells, h.inputs.ilen, h.inputs.alen, h.inputs.iv, h.inputs.ivlen, h.inputs.ts⟩,
    ⟨h.outputs.obuf, h.outputs.obufCells, h.outputs.olen, h.outputs.tsOut⟩, h.hmacOk, h.eq,
    ⟨h.surroundings.bufMax, h.surroundings.rst, h.surroundings.arrivals, h.surroundings.reads⟩⟩

/-- Taking the draws of a command changes nothing that its success leaves. -/
theorem EndsInSuccess.of_takeDraws {s t : State} (h : EndsInSuccess s.takeDraws t) : EndsInSuccess s t :=
  ⟨h.err, h.errInfo, ⟨h.bookkeeping.done, h.bookkeeping.busy, h.bookkeeping.phase, h.bookkeeping.cmd, h.bookkeeping.completed⟩,
    ⟨h.inputs.ibuf, h.inputs.ibufCells, h.inputs.ilen, h.inputs.alen, h.inputs.iv, h.inputs.ivlen, h.inputs.ts⟩,
    ⟨h.surroundings.bufMax, h.surroundings.rst, h.surroundings.arrivals, h.surroundings.reads⟩⟩

/-! Every command's writes are to keys, outputs and result flags alone, so its success leaves the rest as it was. -/

theorem keyCommit_endsInSuccess (f : Flight) (s : State) : EndsInSuccess s ((keyCommit f s).finish f.asked) :=
  ⟨rfl, rfl, ⟨rfl, rfl, rfl, rfl, rfl⟩, ⟨fun _ => rfl, rfl, rfl, rfl, rfl, rfl, rfl⟩, ⟨rfl, rfl, rfl, rfl⟩⟩

theorem encCommit_endsInSuccess (f : Flight) (s : State) : EndsInSuccess s ((encCommit f s).finish f.asked) :=
  ⟨rfl, rfl, ⟨rfl, rfl, rfl, rfl, rfl⟩, ⟨fun _ => rfl, rfl, rfl, rfl, rfl, rfl, rfl⟩, ⟨rfl, rfl, rfl, rfl⟩⟩

theorem decCommit_endsInSuccess (f : Flight) (s : State) : EndsInSuccess s ((decCommit f s).finish f.asked) :=
  ⟨rfl, rfl, ⟨rfl, rfl, rfl, rfl, rfl⟩, ⟨fun _ => rfl, rfl, rfl, rfl, rfl, rfl, rfl⟩, ⟨rfl, rfl, rfl, rfl⟩⟩

theorem transcodeCommit_endsInSuccess (f : Flight) (s : State) : EndsInSuccess s ((transcodeCommit f s).finish f.asked) :=
  ⟨rfl, rfl, ⟨rfl, rfl, rfl, rfl, rfl⟩, ⟨fun _ => rfl, rfl, rfl, rfl, rfl, rfl, rfl⟩, ⟨rfl, rfl, rfl, rfl⟩⟩

theorem cteqCommit_endsInSuccess (f : Flight) (s : State) : EndsInSuccess s ((cteqCommit f s).finish f.asked) :=
  ⟨rfl, rfl, ⟨rfl, rfl, rfl, rfl, rfl⟩, ⟨fun _ => rfl, rfl, rfl, rfl, rfl, rfl, rfl⟩, ⟨rfl, rfl, rfl, rfl⟩⟩

theorem putOutput_outputIs {s : State} {out : Bytes} (hw : s.obuf.wf) (hl : out.length < 2 ^ 16) (asked : List PortRequest) :
    OutputIs s ((s.putOutput out).finish asked) out :=
  ⟨by simpa using hl, Memory.readN_writeN hw 0 out,
    fun _ hj => Memory.read_writeN_outside _ _ _ (.inr (by simpa using hj))⟩

/-! ### When the phases of a command pass, and with what -/

/-- The phases of KEYLD.RAW (spec/42_key_load.md rule R145). -/
theorem run_keyldRawPhases (s : State) :
    runPhases (keyldRawPhases s) Flight.start =
      if s.bufMax < s.ilen.toNat then .error ⟨.badLength, 0, []⟩
      else if s.keyValid then .error ⟨.keyLocked, 0, []⟩
      else if s.input.length ≠ 32 then .error ⟨.invalidKeyLength, 0, []⟩
      else .ok { Flight.start with inp := s.input, sk := keySk s.input, ek := keyEk s.input } := by
  simp only [keyldRawPhases, runPhases, kAdmit, kLength, kSplit, Flight.fail, Flight.start]
  split_ifs <;> simp_all

/-- The phases of KEYLD.B64 (spec/42_key_load.md rule R146). -/
theorem run_keyldB64Phases (s : State) :
    runPhases (keyldB64Phases s) Flight.start =
      if s.bufMax < s.ilen.toNat then .error ⟨.badLength, 0, []⟩
      else if s.keyValid then .error ⟨.keyLocked, 0, []⟩
      else match b64UrlDecode s.input with
        | none => .error ⟨.invalidKeyFormat, 0, []⟩
        | some raw =>
          if raw.length ≠ 32 then .error ⟨.invalidKeyLength, 0, []⟩
          else .ok { Flight.start with inp := raw, sk := keySk raw, ek := keyEk raw } := by
  by_cases h1 : s.bufMax < s.ilen.toNat
  · simp [keyldB64Phases, runPhases, kAdmit, Flight.fail, Flight.start, h1]
  by_cases h2 : s.keyValid = true
  · simp [keyldB64Phases, runPhases, kAdmit, Flight.fail, Flight.start, h1, h2]
  cases h3 : b64UrlDecode s.input with
  | none => simp [keyldB64Phases, runPhases, kAdmit, kDecode, Flight.fail, Flight.start, h1, h2, h3]
  | some raw =>
    by_cases h4 : raw.length = 32 <;>
      simp [keyldB64Phases, runPhases, kAdmit, kDecode, kLength, kSplit, Flight.fail, Flight.start, h1, h2, h3, h4]

/-- The phases of B64E (spec/45_base64url.md rule R183). -/
theorem run_b64ePhases (s : State) :
    runPhases (b64ePhases s) Flight.start =
      if s.bufMax < s.ilen.toNat then .error ⟨.badLength, 0, []⟩
      else if s.bufMax < b64Len s.ilen.toNat then .error ⟨.overflow, 0, []⟩
      else .ok { Flight.start with out := b64UrlEncode s.input } := by
  simp only [b64ePhases, runPhases, b64eAdmit, bEncode, Flight.fail, Flight.start]
  split_ifs <;> simp_all

/-- The phases of B64D (spec/45_base64url.md rule R184). -/
theorem run_b64dPhases (s : State) :
    runPhases (b64dPhases s) Flight.start =
      if s.bufMax < s.ilen.toNat then .error ⟨.badLength, 0, []⟩
      else match b64UrlDecode s.input with
        | none => .error ⟨.base64DecodeFailed, 0, []⟩
        | some r => .ok { Flight.start with out := r } := by
  by_cases h1 : s.bufMax < s.ilen.toNat
  · simp [b64dPhases, runPhases, b64dAdmit, Flight.fail, Flight.start, h1]
  cases h2 : b64UrlDecode s.input <;> simp [b64dPhases, runPhases, b64dAdmit, bDecode, Flight.fail, Flight.start, h1, h2]

/-- The phases of CTEQ (spec/46_ct_compare.md rule R196). -/
theorem run_cteqPhases (s : State) :
    runPhases (cteqPhases s) Flight.start =
      if s.bufMax < s.ilen.toNat then .error ⟨.badLength, 0, []⟩
      else if s.ilen.toNat < s.alen.toNat then .error ⟨.badLength, 0, []⟩
      else .ok { Flight.start with ok := ctEq s.operandA s.operandB } := by
  simp only [cteqPhases, runPhases, cAdmit, cCompare, Flight.fail, Flight.start]
  split_ifs <;> simp_all

/-- What ENC has asked of the ports when its cipher phase begins. -/
def encAskedFirst (ivsrc tssrc : Bool) : List PortRequest :=
  (if tssrc then [] else [.now]) ++ (if ivsrc then [] else [.rng 16])

/-- The values an ENC that meets no error ends with (spec/43_token_encode.md rule R155). -/
def encFlight (ivsrc tssrc : Bool) (s : State) : Flight :=
  let ts := if tssrc then s.ts else be8 s.draws.nowSec
  let iv := if ivsrc then s.iv else s.draws.rngBytes
  let ct := encryptPayload s.ek.toList iv.toList s.input
  let body := tokenBody ts.toList iv.toList ct
  { Flight.start with
    inp := s.input
    ts := ts
    iv := iv
    ct := ct
    body := body
    tag := macTag s.sk.toList body
    tok := frameToken body (macTag s.sk.toList body)
    out := b64UrlEncode (frameToken body (macTag s.sk.toList body))
    asked := encAskedFirst ivsrc tssrc ++ encryptAsks s.ek.toList iv.toList s.input ++ tagAsks s.sk.toList body }

/-- The text of a token has `B64Len(TokenLen(ILEN))` characters (spec/40_token_framer.md rule R115, spec/45_base64url.md rule
R186). -/
theorem encFlight_out_length (ivsrc tssrc : Bool) (s : State) :
    (encFlight ivsrc tssrc s).out.length = b64Len (tokenLen s.ilen.toNat) := by
  simp only [encFlight]
  rw [b64UrlEncode_length, frame_length (by simp) (by simp) (by simp), encryptPayload_length (by simp)]
  simp [State.input, tokenLen]

/-- The phases of ENC (spec/43_token_encode.md rule R155). -/
theorem run_encPhases (ivsrc tssrc : Bool) (s : State) :
    runPhases (encPhases ivsrc tssrc s) Flight.start =
      if s.bufMax < s.ilen.toNat then .error ⟨.badLength, 0, []⟩
      else if s.keyValid = false then .error ⟨.noKey, 0, []⟩
      else if s.bufMax < b64Len (tokenLen s.ilen.toNat) then .error ⟨.overflow, 0, []⟩
      else if (if ivsrc then s.ivlen else s.draws.rngLen) ≠ 16 then .error ⟨.invalidIV, 0, encAskedFirst ivsrc tssrc⟩
      else if s.draws.aesFault ≠ 0 then .error ⟨.cipherError, s.draws.aesFault, encAskedFirst ivsrc tssrc⟩
      else if s.draws.macFault ≠ 0 then
        .error ⟨.authError, s.draws.macFault,
          encAskedFirst ivsrc tssrc ++ encryptAsks s.ek.toList (if ivsrc then s.iv else s.draws.rngBytes).toList s.input⟩
      else .ok (encFlight ivsrc tssrc s) := by
  by_cases h1 : s.bufMax < s.ilen.toNat
  · simp [encPhases, runPhases, eAdmit, Flight.fail, Flight.start, h1]
  by_cases h2 : s.keyValid = false
  · simp [encPhases, runPhases, eAdmit, Flight.fail, Flight.start, h1, h2]
  by_cases h3 : s.bufMax < b64Len (tokenLen s.ilen.toNat)
  · simp [encPhases, runPhases, eAdmit, Flight.fail, Flight.start, h1, h2, h3]
  simp only [if_neg h1, if_neg h2, if_neg h3]
  have h2' : s.keyValid = true := by simpa using h2
  cases ivsrc <;> cases tssrc <;>
    simp only [encPhases, runPhases, eAdmit, eTime, eIv, eCipher, eFrame, eMac, eConcat, eB64, Flight.fail, Flight.start, h1, h2', h3,
      encFlight, encAskedFirst, if_true, if_false, Bool.false_eq_true, Bool.not_true, List.nil_append, List.append_nil,
      List.append_assoc] <;>
    split_ifs <;> simp_all

/-- What the fields of a token of valid length are (spec/40_token_framer.md rules R111, R113). -/
theorem splitToken_fields {t : Bytes} (h : lengthOk t.length = true) :
    (toVec 8 (splitToken t).ts).toList = slice t 1 9 ∧ (toVec 16 (splitToken t).iv).toList = slice t 9 25
      ∧ ((splitToken t).ver = tokenVersion ↔ t.head? = some 0x80) := by
  have hl : 73 ≤ t.length := by
    simp only [lengthOk, Bool.and_eq_true, decide_eq_true_eq] at h
    exact h.1
  refine ⟨toList_toVec (by simp [splitToken]; omega), toList_toVec (by simp [splitToken]; omega), ?_⟩
  cases t with
  | nil => simp at hl
  | cons x t => simp [splitToken, tokenVersion]

/-- The fields DEC works with, from the binary token `t` (spec/44_token_decode.md rule R165, phase D3). -/
def decFlight (s : State) (t p : Bytes) : Flight :=
  let x := splitToken t
  { Flight.start with
    inp := s.input
    tok := t
    ver := x.ver
    ts := toVec 8 x.ts
    iv := toVec 16 x.iv
    ct := x.ct
    tag := x.tag
    body := x.body
    out := p
    ok := ctEq (macTag s.sk.toList x.body) x.tag
    asked := decryptAsks s.ek.toList x.ct ++ tagAsks s.sk.toList x.body }

/-- The plaintext of a token is no longer than the token's text, so it fits where that did. -/
theorem decrypted_length_le {s : State} {t p : Bytes} {iv : Bytes16} (ht : b64UrlDecode s.input = some t)
    (hp : decryptPayload s.ek.toList iv.toList (splitToken t).ct = some p) : p.length ≤ s.ilen.toNat := by
  have h1 := decryptPayload_length_le (by simp) (by simp) hp
  have h2 := b64UrlDecode_length ht
  have h3 : s.input.length = s.ilen.toNat := by simp [State.input]
  have h4 : (splitToken t).ct.length ≤ t.length := by simp [splitToken]
  omega

/-- The phases of DEC (spec/44_token_decode.md rule R165). -/
theorem run_decPhases (s : State) :
    runPhases (decPhases s) Flight.start =
      if s.bufMax < s.ilen.toNat then .error ⟨.badLength, 0, []⟩
      else if s.keyValid = false then .error ⟨.noKey, 0, []⟩
      else match b64UrlDecode s.input with
        | none => .error ⟨.tokenDecodingFailed, 0, []⟩
        | some t =>
          if lengthOk t.length = false then .error ⟨.invalidTokenFormat, 0, []⟩
          else if (splitToken t).ver ≠ tokenVersion then .error ⟨.unknownVersion, 0, []⟩
          else if s.draws.aesFault ≠ 0 then .error ⟨.cipherError, s.draws.aesFault, []⟩
          else match decryptPayload s.ek.toList (toVec 16 (splitToken t).iv).toList (splitToken t).ct with
            | none => .error ⟨.cipherError, 0, decryptAsks s.ek.toList (splitToken t).ct⟩
            | some p =>
              if s.draws.macFault ≠ 0 then
                .error ⟨.authError, s.draws.macFault, decryptAsks s.ek.toList (splitToken t).ct⟩
              else .ok (decFlight s t p) := by
  by_cases h1 : s.bufMax < s.ilen.toNat
  · simp [decPhases, runPhases, dAdmit, Flight.fail, Flight.start, h1]
  by_cases h2 : s.keyValid = false
  · simp [decPhases, runPhases, dAdmit, Flight.fail, Flight.start, h1, h2]
  have h2' : s.keyValid = true := by simpa using h2
  cases h3 : b64UrlDecode s.input with
  | none => simp [decPhases, runPhases, dAdmit, dTransport, Flight.fail, Flight.start, h1, h2', h3]
  | some t =>
    by_cases h4 : lengthOk t.length = false
    · simp [decPhases, runPhases, dAdmit, dTransport, dLength, Flight.fail, Flight.start, h1, h2', h3, h4]
    have h4' : lengthOk t.length = true := by simpa using h4
    by_cases h5 : (splitToken t).ver = tokenVersion
    · by_cases h6 : s.draws.aesFault = 0#8
      · cases h7 : decryptPayload s.ek.toList (toVec 16 (splitToken t).iv).toList (splitToken t).ct with
        | none =>
          simp [decPhases, runPhases, dAdmit, dTransport, dLength, dSplit, dVersion, dDecrypt, Flight.fail, Flight.start, h1, h2',
            h3, h4', h5, h6, h7]
        | some p =>
          by_cases h8 : s.draws.macFault = 0#8 <;>
            simp [decPhases, runPhases, dAdmit, dTransport, dLength, dSplit, dVersion, dDecrypt, dAuthenticate, dReturn,
              Flight.fail, Flight.start, decFlight, h1, h2', h3, h4', h5, h6, h7, h8]
      · simp [decPhases, runPhases, dAdmit, dTransport, dLength, dSplit, dVersion, dDecrypt, Flight.fail, Flight.start, h1, h2', h3,
          h4', h5, h6]
    · simp [decPhases, runPhases, dAdmit, dTransport, dLength, dSplit, dVersion, Flight.fail, Flight.start, h1, h2', h3, h4', h5]

end Sys2Proof.Machine
end

