-- ==== Sys2Proof/Laws/PerInstr.lean ====
section
/-! SUPPORT. Statements about every instruction as syntax, one lemma per constructor. -/

namespace Sys2Proof.Laws

/-- The encoded byte has exactly the instruction's fields and is a legal format C command (spec/30_encoding.md rules R90, R93,
R95). -/
def EncodedFields.Statement (i : Instr) : Prop :=
  formatOf (encode i) = formatFor i ∧ (formatOf (encode i)).wellFormed = true ∧ i.wellFormed = true

theorem EncodedFields.keyldRaw : EncodedFields.Statement .keyldRaw := by unfold EncodedFields.Statement; decide
theorem EncodedFields.keyldB64 : EncodedFields.Statement .keyldB64 := by unfold EncodedFields.Statement; decide
theorem EncodedFields.enc (ivsrc tssrc : Bool) : EncodedFields.Statement (.enc ivsrc tssrc) := by
  unfold EncodedFields.Statement; revert ivsrc tssrc; decide
theorem EncodedFields.dec : EncodedFields.Statement .dec := by unfold EncodedFields.Statement; decide
theorem EncodedFields.b64e : EncodedFields.Statement .b64e := by unfold EncodedFields.Statement; decide
theorem EncodedFields.b64d : EncodedFields.Statement .b64d := by unfold EncodedFields.Statement; decide
theorem EncodedFields.cteq : EncodedFields.Statement .cteq := by unfold EncodedFields.Statement; decide
theorem EncodedFields.srst : EncodedFields.Statement .srst := by unfold EncodedFields.Statement; decide

end Sys2Proof.Laws
end

