-- ==== Sys2Proof/Laws/Step.lean ====
section
/-! SUPPORT. What one step can do, said once: a host read, a host write, a change of the reset pin, an idle move, or the complete step
of the command in flight. -/

namespace Sys2Proof.Machine

/-- The state a step works on: the block held in reset where `rst` is asserted, the arrival taken. -/
def State.served (s : State) : State := { s.held with arrivals := s.arrivals.tail }

theorem held_of_released {s : State} (h : s.rst = false) : s.held = s := by simp [State.held, h]

theorem held_of_asserted {s : State} (h : s.rst = true) : s.held = s.resetBlock := by simp [State.held, h]

@[simp] theorem State.held_rst (s : State) : s.held.rst = s.rst := by unfold State.held; split <;> rfl

@[simp] theorem State.held_arrivals (s : State) : s.held.arrivals = s.arrivals := by unfold State.held; split <;> rfl

theorem served_of_released {s : State} (h : s.rst = false) : s.served = s.afterSlot := by
  simp [State.served, State.afterSlot, held_of_released h]

theorem step_of_read {s : State} {a : BusAddr} {rest : List Arrival} (h : s.arrivals = .read a :: rest) :
    step s = .next (s.served.hostRead a) := by
  simp [step, h, serve, State.served]

theorem step_of_write {s : State} {a : BusAddr} {b : Byte} {rest : List Arrival} (h : s.arrivals = .write a b :: rest) :
    step s = .next (s.served.hostWrite a b) := by
  simp [step, h, serve, State.served]

theorem step_of_rst {s : State} {level : Bool} {rest : List Arrival} (h : s.arrivals = .rst level :: rest) :
    step s = .next (s.served.setRst level) := by
  simp [step, h, serve, State.served]

theorem step_of_sequencerNext {s : State} (h : s.SequencerNext) : step s = sequencerMove s.served := by
  have he : ∀ u : State, u.arrivals = [] → { u with arrivals := [] } = u := by rintro ⟨⟩ rfl; rfl
  unfold step State.served
  rcases h with h | h
  · simp only [h, List.tail_nil]
    rw [he s.held (by simp [h])]
  · cases hs : s.arrivals with
    | nil => simp [hs] at h
    | cons a rest =>
      simp only [hs, List.head?_cons, Option.some.injEq] at h
      simp [h, serve]

/-- Everything a step in which the sequencer moves can be. -/
theorem move_cases {s t : State} (hq : s.SequencerNext) (h : step s = .next t) :
    ((s.rst = true ∨ s.served.busy = false) ∧ t = s.served)
      ∨ (s.rst = false ∧ s.busy = true ∧ ∃ i, decode s.cmd = .ok i ∧ exec i s.afterSlot = .next t)
      ∨ (s.rst = false ∧ s.busy = true ∧ ∃ e, decode s.cmd = .error e ∧ execIllegal s.afterSlot = .next t) := by
  rw [step_of_sequencerNext hq] at h
  by_cases hr : s.rst = true
  · have : s.served.rst = true := by simp [State.served, hr]
    simp only [sequencerMove, this, if_true, Host.Outcome.next.injEq] at h
    exact .inl ⟨.inl hr, h.symm⟩
  have hr : s.rst = false := by simpa using hr
  rw [served_of_released hr] at h ⊢
  have h0 : s.afterSlot.rst = false := hr
  by_cases hb : s.busy = true
  · have h1 : s.afterSlot.busy = true := hb
    have h2 : s.afterSlot.cmd = s.cmd := rfl
    simp only [sequencerMove, h0, h1, if_true, Bool.false_eq_true, if_false, runCommand, h2] at h
    cases hd : decode s.cmd with
    | ok i => exact .inr (.inl ⟨hr, hb, i, rfl, by simpa [hd] using h⟩)
    | error e => exact .inr (.inr ⟨hr, hb, e, rfl, by simpa [hd] using h⟩)
  · have h1 : s.afterSlot.busy = false := by simpa [State.afterSlot] using hb
    simp only [sequencerMove, h0, h1, Bool.false_eq_true, if_false, Host.Outcome.next.injEq] at h
    exact .inl ⟨.inr h1, h.symm⟩

/-- Everything a step that answers a next state can be. -/
theorem step_cases {s t : State} (h : step s = .next t) :
    (∃ a rest, s.arrivals = .read a :: rest ∧ t = s.served.hostRead a)
      ∨ (∃ a b rest, s.arrivals = .write a b :: rest ∧ t = s.served.hostWrite a b)
      ∨ (∃ level rest, s.arrivals = .rst level :: rest ∧ t = s.served.setRst level)
      ∨ (s.SequencerNext ∧ (((s.rst = true ∨ s.served.busy = false) ∧ t = s.served)
        ∨ (s.rst = false ∧ s.busy = true ∧ ∃ i, decode s.cmd = .ok i ∧ exec i s.afterSlot = .next t)
        ∨ (s.rst = false ∧ s.busy = true ∧ ∃ e, decode s.cmd = .error e ∧ execIllegal s.afterSlot = .next t))) := by
  have move : s.SequencerNext → _ := fun hq => And.intro hq (move_cases hq h)
  cases hs : s.arrivals with
  | nil => exact .inr (.inr (.inr (move (.inl hs))))
  | cons a rest =>
    cases a with
    | read a => exact .inl ⟨a, rest, rfl, by simpa [step_of_read hs] using h.symm⟩
    | write a b => exact .inr (.inl ⟨a, b, rest, rfl, by simpa [step_of_write hs] using h.symm⟩)
    | rst level => exact .inr (.inr (.inl ⟨level, rest, rfl, by simpa [step_of_rst hs] using h.symm⟩))
    | quiet => exact .inr (.inr (.inr (move (.inr (by simp [hs])))))

end Sys2Proof.Machine
end

