-- ==== Sys2Proof/Machine/Script.lean ====
section
/-! DEFINITION. The host-script notation (spec/30_encoding.md rules R98, R99): each statement is a list of arrivals. It is how a
program of FTC is written down; nothing of the machine depends on it. -/

namespace Sys2Proof.Machine

/-- The statements of spec/30_encoding.md rules R98 and R99. -/
inductive Stmt where
  | wr (a : BusAddr) (b : Byte)
  | rd (a : BusAddr)
  | cmd (i : Instr)
  | wait
  | load (s : Bytes)
  | setAlen (n : Nat)
  | setTs (v : Nat)
  | setIv (s : Bytes)
  | run (i : Instr)
  | readout
  | readTs
deriving DecidableEq, Repr

/-- Writes of the bytes of `s` from address `a` on, ascending. -/
def writesAt : Nat → Bytes → List Arrival
  | _, [] => []
  | a, b :: s => .write (BitVec.ofNat 18 a) b :: writesAt (a + 1) s

/-- Reads of `n` addresses from `a` on, ascending. -/
def readsAt (a n : Nat) : List Arrival := (List.range n).map fun k => .read (BitVec.ofNat 18 (a + k))

/-- A 16-bit length written in two bytes, high byte first. -/
def lengthBytes (n : Nat) : Bytes := [BitVec.ofNat 8 (n / 256), BitVec.ofNat 8 (n % 256)]

/-- The expansion of a statement (spec/30_encoding.md rules R98, R99) where the state is `s` when it is reached (READOUT reads OLEN).
WAIT is one quiet slot, in which the command in flight completes, and one poll of STATUS (log entry 3). -/
def Stmt.expand (s : State) : Stmt → List Arrival
  | .wr a b => [.write a b]
  | .rd a => [.read a]
  | .cmd i => [.write 0x00000 (encode i)]
  | .wait => [.quiet, .read 0x00001]
  | .load t => writesAt 0x10000 t ++ writesAt 0x00004 (lengthBytes t.length)
  | .setAlen n => writesAt 0x00008 (lengthBytes n)
  | .setTs v => writesAt 0x00010 (be 8 v)
  | .setIv t => writesAt 0x00020 (t.take 16) ++ writesAt 0x0000A [BitVec.ofNat 8 (t.length % 256)]
  | .run i => [.write 0x00000 (encode i), .quiet, .read 0x00001]
  | .readout => readsAt 0x00006 2 ++ readsAt 0x20000 s.olen.toNat
  | .readTs => readsAt 0x00018 8

/-- A statement's arrivals placed behind what is still to come. -/
def State.place (s : State) (p : Stmt) : State := { s with arrivals := s.arrivals ++ p.expand s }

end Sys2Proof.Machine
end

