-- ==== Sys2Proof/Tests/Slice0.lean ====
section
/-! SUPPORT. Tests: expected values are the spec's (its encoding tables, worked examples and vectors, named at each test), and one
witness for every statement that has hypotheses. -/

namespace Sys2Proof.Tests

open Sys2Proof Sys2Proof.Machine

set_option Elab.async false

/-! ### Well-formedness: one ill-formed command for each check -/

theorem test_wellFormed_accepts : (⟨0, true, true, 0x2⟩ : FormatC).wellFormed = true := by decide
theorem test_wellFormed_refuses_z : (⟨1, false, false, 0x2⟩ : FormatC).wellFormed = false := by decide
theorem test_wellFormed_refuses_op : (⟨0, false, false, 0x7⟩ : FormatC).wellFormed = false := by decide
theorem test_wellFormed_refuses_f0 : (⟨0, false, true, 0x3⟩ : FormatC).wellFormed = false := by decide
theorem test_wellFormed_refuses_f1 : (⟨0, true, false, 0x1⟩ : FormatC).wellFormed = false := by decide

/-! ### Decoding: bytes written out bit by bit from spec/30_encoding.md rules R90, R94: Z, F1, F0, OP -/

theorem test_decode_keyldRaw : decode (0b00#2 ++ 0b0#1 ++ 0b0#1 ++ 0b0001#4) = .ok .keyldRaw := by decide
theorem test_decode_keyldB64 : decode (0b00#2 ++ 0b0#1 ++ 0b1#1 ++ 0b0001#4) = .ok .keyldB64 := by decide
theorem test_decode_enc_rng_now : decode (0b00#2 ++ 0b0#1 ++ 0b0#1 ++ 0b0010#4) = .ok (.enc false false) := by decide
theorem test_decode_enc_ivsrc : decode (0b00#2 ++ 0b0#1 ++ 0b1#1 ++ 0b0010#4) = .ok (.enc true false) := by decide
theorem test_decode_enc_tssrc : decode (0b00#2 ++ 0b1#1 ++ 0b0#1 ++ 0b0010#4) = .ok (.enc false true) := by decide
theorem test_decode_enc_both : decode (0b00#2 ++ 0b1#1 ++ 0b1#1 ++ 0b0010#4) = .ok (.enc true true) := by decide
theorem test_decode_dec : decode (0b00#2 ++ 0b0#1 ++ 0b0#1 ++ 0b0011#4) = .ok .dec := by decide
theorem test_decode_b64e : decode (0b00#2 ++ 0b0#1 ++ 0b0#1 ++ 0b0100#4) = .ok .b64e := by decide
theorem test_decode_b64d : decode (0b00#2 ++ 0b0#1 ++ 0b0#1 ++ 0b0101#4) = .ok .b64d := by decide
theorem test_decode_cteq : decode (0b00#2 ++ 0b0#1 ++ 0b0#1 ++ 0b0110#4) = .ok .cteq := by decide
theorem test_decode_srst : decode (0b00#2 ++ 0b0#1 ++ 0b0#1 ++ 0b1111#4) = .ok .srst := by decide

/-- The illegal bytes that vector V80 lists (spec/95_test_vectors.md). -/
theorem test_decode_illegal :
    ([0x00, 0x07, 0x0E, 0x10, 0x13, 0x21, 0x31, 0x1F, 0x40, 0x42, 0x80, 0x82, 0xFF] : Bytes).all
      (fun c => (decode c).toOption == none) = true := by decide

theorem test_decodeTableWord : decodeTableWord 8 0x32 = some (.enc true true) := by decide

/-! ### States to test on -/

/-- After reset, with BUF_MAX = 256. -/
def base : State := { State.reset with bufMax := 256 }

/-- The byte string whose byte `i` is `i`. -/
def counting (n : Nat) : Bytes := (List.range n).map (BitVec.ofNat 8)

/-- The bytes of a text. -/
def txt (s : String) : Bytes := s.toList.map fun c => BitVec.ofNat 8 c.toNat

/-- The input in IBUF and ILEN. -/
def withInput (s : State) (b : Bytes) : State :=
  { s with ibuf := Memory.cleared.writeN 0 b, ilen := BitVec.ofNat 16 b.length }

/-- Port answers without a fault: the time 0x6553F100, the 16 IV bytes A0 to AF. -/
def calm : PortAnswers :=
  { nowSec := 0x6553F100, nowFrac := 0xFFFFFFFF, rngLen := 16, rngBytes := Vector.ofFn fun i => BitVec.ofNat 8 (0xA0 + i.val)
    aesFault := 0, macFault := 0 }

/-- The key 00 01 … 1F loaded (key B of spec/95_test_vectors.md), the ports answering `a`. -/
def keyed (a : PortAnswers) : State :=
  { base with sk := toVec 16 (counting 16), ek := toVec 16 ((counting 32).drop 16), keyValid := true, answers := [a] }

/-- One value of the state a step leaves. -/
def after {α : Type} (f : State → α) : Host.Outcome State Fault Refusal → Option α
  | .next t => some (f t)
  | _ => none

/-- STATUS, ERR and ERRINFO. -/
def result (s : State) : Nat × Nat × Nat := (s.statusByte.toNat, s.err.code.toNat, s.errInfo.toNat)

/-- `OBUF[0..OLEN)`. -/
def output (s : State) : Bytes := s.obuf.readN 0 s.olen.toNat

/-- Accept of `c`, then the sequencer's move. -/
def run (c : Byte) (s : State) : Host.Outcome State Fault Refusal := step (s.accept c)

/-- The token of vector V40 for "hello" under key B, at the time and with the IV of `calm`, as ASCII codes:
gAAAAABlU_EAoKGio6SlpqeoqaqrrK2ur9-Qneqca4SEMqRPdUcxhYTfW-WjbPNcYeJkOkkKrFTUjWehnWDTHTmlCgv-jfRw6g -/
def helloToken : Bytes :=
  be 49 0x674141414141426c555f45416f4b47696f36536c7071656f71617172724b327572392d516e657163613453454d71525064
    ++ be 49 0x55637868595466572d576a62504e6359654a6b4f6b6b4b724654556a5765686e57445448546d6c4367762d6a6652773667

/-- The same text with another last character, so another last byte in the HMAC field. -/
def helloForged : Bytes :=
  be 49 0x674141414141426c555f45416f4b47696f36536c7071656f71617172724b327572392d516e657163613453454d71525064
    ++ be 49 0x55637868595466572d576a62504e6359654a6b4f6b6b4b724654556a5765686e57445448546d6c4367762d6a6652773677

/-! ### The primitives: known answers of spec/48_primitives_aes_sha256.md rule R229 -/

theorem test_aesEnc : aesEnc (counting 16) (be 16 0x00112233445566778899aabbccddeeff) =
    be 16 0x69c4e0d86a7b0430d8cdb78070b4c55a := by decide +kernel
theorem test_aesDec : aesDec (counting 16) (be 16 0x69c4e0d86a7b0430d8cdb78070b4c55a) =
    be 16 0x00112233445566778899aabbccddeeff := by decide +kernel
theorem test_sha256 : sha256 (txt "abc") = be 32 0xba7816bf8f01cfea414140de5dae2223b00361a396177a9cb410ff61f20015ad := by
  decide +kernel

/-! ### One step of each command -/

/-- V30 a: the worked example of spec/42_key_load.md rule R145. -/
theorem test_keyldRaw_loads : after (fun t => (result t, t.sk.toList, t.ek.toList)) (run 0x01 (withInput base (counting 32))) =
    some ((0x0A, 0, 0), counting 16, (counting 32).drop 16) := by decide +kernel

/-- A second key load gives KeyLocked (spec/42_key_load.md rule R145). -/
theorem test_keyldRaw_locked : after result (run 0x01 (withInput (keyed calm) (counting 32))) = some (0x0E, 0x12, 0) := by
  decide +kernel

/-- The source's key as text (spec/42_key_load.md rule R146, V1). -/
theorem test_keyldB64_loads :
    after (fun t => (result t, t.sk.toList, t.ek.toList))
      (run 0x11 (withInput base (be 43 0x33622d4e71673672792d6a7241754479566a5377456538777264794550516650754f514e483171356f6c45))) =
    some ((0x0A, 0, 0), be 16 0xddbf8daa0eabcbe8eb02e0f25634b011, be 16 0xef30addc843d07cfb8e40d1f5ab9a251) := by decide +kernel

/-- 41 characters cannot be decoded (spec/42_key_load.md rule R146). -/
theorem test_keyldB64_format : after result (run 0x11 (withInput base (rep 0x41 41))) = some (0x06, 0x01, 0) := by
  decide +kernel

/-- V40: the token of "hello", time and IV from the ports. -/
theorem test_enc_hello : after (fun t => (result t, output t, t.tsOut.toList)) (run 0x02 (withInput (keyed calm) (txt "hello"))) =
    some ((0x0A, 0, 0), helloToken, be 8 0x6553F100) := by decide +kernel

/-- An IV of 15 bytes gives InvalidIV (V40 h). -/
theorem test_enc_iv : after result (run 0x02 (withInput (keyed { calm with rngLen := 15 }) (txt "hello"))) =
    some (0x0E, 0x03, 0) := by decide +kernel

/-- V50: the token opens, authentic. -/
theorem test_dec_hello : after (fun t => (result t, output t, t.tsOut.toList)) (run 0x03 (withInput (keyed calm) helloToken)) =
    some ((0x1A, 0, 0), txt "hello", be 8 0x6553F100) := by decide +kernel

/-- A changed HMAC field is no error; the plaintext is delivered and HMAC_OK is 0 (spec/44_token_decode.md rules R165, R167). -/
theorem test_dec_forged : after (fun t => (result t, output t)) (run 0x03 (withInput (keyed calm) helloForged)) =
    some ((0x0A, 0, 0), txt "hello") := by decide +kernel

/-- V61 c: the worked example of spec/45_base64url.md rule R183. -/
theorem test_b64e : after (fun t => (result t, output t)) (run 0x04 (withInput base [0xFB, 0xFF])) =
    some ((0x02, 0, 0), txt "-_8") := by decide +kernel

/-- The worked example of spec/45_base64url.md rule R184. -/
theorem test_b64d : after (fun t => (result t, output t)) (run 0x05 (withInput base (txt "-_8"))) =
    some ((0x02, 0, 0), [0xFB, 0xFF]) := by decide +kernel

/-- The worked error of spec/45_base64url.md rule R184. -/
theorem test_b64d_fails : after (fun t => (result t, t.olen.toNat)) (run 0x05 (withInput base (txt "A"))) =
    some ((0x06, 0x15, 0), 0) := by decide +kernel

/-- The worked example of spec/46_ct_compare.md rule R196. -/
theorem test_cteq_equal :
    after result (run 0x06 { withInput base [0xDE, 0xAD, 0xBE, 0xEF, 0xDE, 0xAD, 0xBE, 0xEF] with alen := 4 }) =
      some (0x22, 0, 0) := by decide +kernel
theorem test_cteq_unequal :
    after result (run 0x06 { withInput base [0xDE, 0xAD, 0xBE, 0xEF, 0xDE, 0xAD, 0xBE, 0xEE] with alen := 4 }) =
      some (0x02, 0, 0) := by decide +kernel

/-- SRST (spec/47_control.md rule R205, V80). -/
theorem test_srst : after (fun t => (result t, t.sk.toList, t.ibuf, t.ilen, t.cmd)) (run 0x0F (withInput (keyed calm) [1])) =
    some ((0, 0, 0), rep 0 16, Memory.cleared, 0, 0) := by decide +kernel

/-- An illegal byte (spec/47_control.md rule R206). -/
theorem test_illegal : after (fun t => (result t, t.cmd)) (run 0x13 base) = some ((0x06, 0x10, 0), 0x13) := by decide +kernel

/-! ### The first step after reset, the bus, the notation -/

theorem test_withFetchWord_runs (w : Fin 16) :
    after (fun _ => true) (step (State.reset.withFetchWord 8 w.val)) = some true := by
  revert w
  decide +kernel

/-- Every register byte of spec/20_memory.md rule R66 is 0x00 after reset, and so are the reserved ones. -/
theorem test_reset_reads_zero : (List.range 0x34).all (fun a => base.busByte (BitVec.ofNat 18 a) == 0) = true := by decide +kernel

/-- A length is written high byte first and reads back (spec/20_memory.md rule R66). -/
theorem test_ilen_halves :
    ((base.hostWrite 0x00004 0x12).hostWrite 0x00005 0x34).ilen = 0x1234 := by decide +kernel

/-- LOAD and RUN of spec/30_encoding.md rule R99. -/
theorem test_script :
    (Stmt.load (txt "ab")).expand base ++ (Stmt.run .b64e).expand base =
      [.write 0x10000 0x61, .write 0x10001 0x62, .write 0x00004 0x00, .write 0x00005 0x02, .write 0x00000 0x04, .quiet,
        .read 0x00001] := by decide +kernel

/-! ### Witnesses: the hypotheses of each statement, met together -/

theorem wit_DecodeAndEncodeAgree :
    (Instr.enc true true).wellFormed = true ∧ decode 0x32 = .ok (.enc true true) := by decide

theorem wit_StepRunsTheDecodedCommand :
    (decode ((keyed calm).accept 0x32).cmd = .ok (.enc true true) ∧ (Instr.enc true true).wellFormed = true
      ∧ ((keyed calm).accept 0x32).busy = true ∧ ((keyed calm).accept 0x32).rst = false
      ∧ ((keyed calm).accept 0x32).SequencerNext)
    ∧ State.SequencerNext { (keyed calm).accept 0x32 with arrivals := [.quiet] } := by decide +kernel

theorem wit_IdleSequencerDoesNothing :
    base.busy = false ∧ base.rst = false ∧ base.SequencerNext := by decide +kernel

theorem wit_CmdWriteAccepts :
    let s := { base with arrivals := [.write 0x00000 0x32, .quiet] }
    let u := { base.accept 0x04 with arrivals := [.write 0x00000 0x32] }
    (s.arrivals = .write 0x00000 0x32 :: [.quiet] ∧ s.rst = false ∧ s.busy = false)
      ∧ u.arrivals = .write 0x00000 0x32 :: [] ∧ u.rst = false ∧ u.busy = true := by decide +kernel

theorem wit_IllegalByteEndsWithIllegalCommand :
    let s := { base with arrivals := [.write 0x00000 0x13] }
    decode 0x13 = .error .flagSet ∧ decode 0x40 = .error .zNonzero ∧ decode 0x00 = .error .opReserved
      ∧ s.arrivals = [.write 0x00000 0x13] ∧ s.rst = false ∧ s.busy = false := by decide +kernel

/-- A command in flight, in a state with the invariant. -/
theorem inv_inFlight : State.Inv { (keyed calm).accept 0x03 with arrivals := [.write 0x10000 0x55] } :=
  ⟨by decide +kernel, by decide +kernel, by decide +kernel, by decide +kernel, by decide +kernel, by decide +kernel,
    by decide +kernel⟩

theorem wit_BusWhileBusyDropsWritesAndReadsCleared :
    ∃ s : State, s.Inv ∧ s.busy = true ∧ s.arrivals = .write 0x10000 0x55 :: [] ∧ s.keyValid = true :=
  ⟨_, inv_inFlight, by decide +kernel⟩

/-- The hypotheses and the boundaries of every clause: the ends of each register array and of the buffers. -/
theorem wit_HostReadReturnsMappedByte :
    let s := { keyed calm with arrivals := [.read 0x100FF] }
    (s.ParamOk ∧ s.rst = false ∧ s.arrivals = .read 0x100FF :: [])
      ∧ locate 256 0x10 = .ts 0 ∧ locate 256 0x17 = .ts 7 ∧ locate 256 0x18 = .tsOut 0 ∧ locate 256 0x1F = .tsOut 7
      ∧ locate 256 0x20 = .iv 0 ∧ locate 256 0x2F = .iv 15 ∧ locate 256 0x10000 = .ibuf 0 ∧ locate 256 0x100FF = .ibuf 255
      ∧ locate 256 0x20000 = .obuf 0 ∧ locate 256 0x200FF = .obuf 255 := by decide +kernel

/-- The addresses on each side of the reserved ranges. -/
theorem wit_HostReadReturnsMappedByte_unmapped :
    ([0x0B, 0x0F, 0x30, 0xFFFF, 0x10100, 0x1FFFF, 0x20100, 0x2FFFF, 0x30000, 0x3FFFF].all fun a => decide (Unmapped 256 a)) = true
      ∧ ([0x0A, 0x10, 0x2F, 0x10000, 0x100FF, 0x20000, 0x200FF].any fun a => decide (Unmapped 256 a)) = false := by
  decide +kernel

theorem wit_HostWriteStoresOrIsDropped :
    let s := { base with arrivals := [.write 0x100FF 0x55] }
    (s.ParamOk ∧ s.ibuf.wf ∧ s.rst = false ∧ s.busy = false ∧ s.arrivals = .write 0x100FF 0x55 :: []) := by
  decide +kernel

/-- Where a write stores the byte, and where it is dropped: the ends of each range. -/
theorem wit_HostWriteStoresOrIsDropped_ranges :
    ([0x04, 0x05, 0x08, 0x0A, 0x10, 0x17, 0x20, 0x2F, 0x10000, 0x100FF].all fun a => decide (HostWritable 256 a)) = true
      ∧ ([0x01, 0x03, 0x06, 0x07, 0x0B, 0x0F, 0x18, 0x1F, 0x30, 0xFFFF, 0x10100, 0x20000, 0x3FFFF].any
        fun a => decide (HostWritable 256 a)) = false := by
  decide +kernel

theorem wit_EveryResetGivesTheResetValues :
    State.arrivals { (keyed calm).accept 0x03 with arrivals := [.rst true] } = .rst true :: [] := by decide +kernel

theorem wit_ResetPinAbortsAndHolds :
    let s := { base with rst := true }
    State.arrivals { base with arrivals := [.rst true] } = .rst true :: [] ∧ s.rst = true
      ∧ State.arrivals { s with arrivals := [.write 0x00000 0x04] } = .write 0x00000 0x04 :: []
      ∧ State.arrivals { s with arrivals := [.read 0x00001] } = .read 0x00001 :: []
      ∧ State.arrivals { s with arrivals := [.quiet] } = .quiet :: []
      ∧ State.arrivals { s with arrivals := [.rst false] } = .rst false :: [] := by decide +kernel

/-- The pin is asserted with a command in flight, a quiet slot next, and with nothing more to come. -/
theorem wit_NothingRunsWhileTheResetPinHolds :
    let s := { (keyed calm).accept 0x03 with rst := true }
    s.rst = true ∧ s.SequencerNext ∧ State.SequencerNext { s with arrivals := [.quiet] } ∧ s.busy = true := by decide +kernel

theorem wit_KeyldRawLoadsBothHalves :
    let s := withInput base (counting 32)
    s.ilen.toNat ≤ s.bufMax ∧ s.keyValid = false ∧ s.ilen.toNat = 32 := by decide +kernel

/-- Each end of KEYLD.RAW, at the lengths 256 and 257 around BUF_MAX and 31, 32, 33 around the key's. -/
theorem wit_KeyldRawErrorsInOrder :
    after result (exec .keyldRaw { keyed calm with ilen := 257 }) = some (0x0E, 0x14, 0)
      ∧ after result (exec .keyldRaw { keyed calm with ilen := 256 }) = some (0x0E, 0x12, 0)
      ∧ after result (exec .keyldRaw { base with ilen := 31 }) = some (0x06, 0x02, 0)
      ∧ after result (exec .keyldRaw { base with ilen := 33 }) = some (0x06, 0x02, 0)
      ∧ after result (exec .keyldRaw { base with ilen := 32 }) = some (0x0A, 0, 0) := by decide +kernel

theorem wit_KeyldB64LoadsDecodedHalves :
    let s := withInput base (rep 0x41 43)
    s.ilen.toNat ≤ s.bufMax ∧ s.keyValid = false ∧ b64UrlDecode s.input = some (rep 0 32) ∧ (rep 0 32).length = 32 := by
  decide +kernel

theorem wit_KeyldB64ErrorsInOrder :
    after result (exec .keyldB64 { keyed calm with ilen := 257 }) = some (0x0E, 0x14, 0)
      ∧ after result (exec .keyldB64 (keyed calm)) = some (0x0E, 0x12, 0)
      ∧ after result (exec .keyldB64 (withInput base (rep 0x41 41))) = some (0x06, 0x01, 0)
      ∧ after result (exec .keyldB64 (withInput base (rep 0x41 42))) = some (0x06, 0x02, 0)
      ∧ after result (exec .keyldB64 (withInput base (rep 0x41 43))) = some (0x0A, 0, 0) := by decide +kernel

theorem wit_BothKeyFormsLoadTheSameKey :
    let s := withInput base (b64UrlEncode (counting 32))
    let u := withInput base (counting 32)
    (counting 32).length = 32 ∧ s.input = b64UrlEncode (counting 32) ∧ u.input = counting 32 ∧ s.ilen.toNat ≤ s.bufMax
      ∧ u.ilen.toNat ≤ u.bufMax ∧ s.keyValid = false ∧ u.keyValid = false := by decide +kernel

theorem wit_LoadedKeyIsHeldUntilReset :
    let s := { keyed calm with arrivals := [.write 0x00000 0x01] }
    (∃ t, step s = .next t) ∧ s.keyValid = true ∧ s.rst = false ∧ s.arrivals.head? ≠ some (.rst true)
      ∧ ¬ (s.SequencerNext ∧ s.busy = true ∧ decode s.cmd = .ok .srst) :=
  ⟨⟨_, rfl⟩, by decide +kernel⟩

/-- ENC's hypotheses in each flag form; the shortest and the longest input that fits BUF_MAX = 256. -/
theorem wit_EncMakesTheToken :
    let s := { withInput (keyed calm) (txt "hello") with ivlen := 16 }
    (s.ParamOk ∧ s.obuf.wf ∧ s.ilen.toNat ≤ s.bufMax ∧ s.keyValid = true ∧ b64Len (tokenLen s.ilen.toNat) ≤ s.bufMax
      ∧ encVectorLen true s = 16 ∧ encVectorLen false s = 16 ∧ s.draws.aesFault = 0x00 ∧ s.draws.macFault = 0x00)
    ∧ b64Len (tokenLen 0) ≤ 256 ∧ b64Len (tokenLen 127) ≤ 256 ∧ ¬ b64Len (tokenLen 128) ≤ 256 := by decide +kernel

/-- Each end of ENC but success, which is `test_enc_hello`. -/
theorem wit_EncErrorsInOrder :
    let s := { keyed calm with ivlen := 16 }
    after result (exec (.enc true true) { s with ilen := 257 }) = some (0x0E, 0x14, 0)
      ∧ after result (exec (.enc true true) { base with ilen := 256 }) = some (0x06, 0x11, 0)
      ∧ after result (exec (.enc true true) { s with ilen := 128 }) = some (0x0E, 0x13, 0)
      ∧ after result (exec (.enc true true) { s with ilen := 127, ivlen := 15 }) = some (0x0E, 0x03, 0)
      ∧ after result (exec (.enc true true) { s with answers := [{ calm with aesFault := 7, macFault := 9 }] }) =
        some (0x0E, 0x04, 7)
      ∧ after result (exec (.enc true true) { s with answers := [{ calm with macFault := 9 }] }) = some (0x0E, 0x05, 9) := by
  decide +kernel

/-- Two states that differ in what ENC.DET does not use: ALEN, CMD, the ports' time and IV. -/
theorem wit_EncIsAFunctionOfItsInputs :
    let s := { withInput (keyed calm) (txt "hello") with ivlen := 16 }
    let u := { s with
      alen := 9
      cmd := 0x32
      answers := [{ calm with nowSec := 1, rngLen := 3 }] }
    s.bufMax = u.bufMax ∧ s.sk = u.sk ∧ s.ek = u.ek ∧ s.keyValid = u.keyValid ∧ s.ilen = u.ilen ∧ s.input = u.input
      ∧ encStamp true s = encStamp true u ∧ encVector true s = encVector true u ∧ encVectorLen true s = encVectorLen true u
      ∧ s.draws.aesFault = u.draws.aesFault ∧ s.draws.macFault = u.draws.macFault ∧ s.OutputsClear ∧ u.OutputsClear
      ∧ s.err = .ok ∧ u.err = .ok ∧ s.errInfo = 0 ∧ u.errInfo = 0 := by decide +kernel

/-- The binary form of `helloForged`. -/
def forgedBytes : Bytes := (b64UrlDecode helloForged).getD []

/-- A token that is not authentic, but decodes, has a valid length and version and decrypts to good padding. -/
theorem wit_DecDeliversPlaintextAndFlag :
    let s := withInput (keyed calm) helloForged
    s.ParamOk ∧ s.obuf.wf ∧ s.ilen.toNat ≤ s.bufMax ∧ s.keyValid = true ∧ b64UrlDecode s.input = some forgedBytes
      ∧ 73 ≤ forgedBytes.length ∧ (forgedBytes.length - 57) % 16 = 0 ∧ forgedBytes.head? = some 0x80
      ∧ s.draws.aesFault = 0x00 ∧ s.draws.macFault = 0x00
      ∧ decryptPayload s.ek.toList (slice forgedBytes 9 25) (slice forgedBytes 25 (forgedBytes.length - 32)) =
        some (txt "hello") := by decide +kernel

/-- Each end of DEC but success, which is `test_dec_forged`. 98 `A` decode to 73 bytes of 0x00; a token with zero ciphertext under
key B has bad padding. -/
theorem wit_DecErrorsInOrder :
    after result (exec .dec { keyed calm with ilen := 257 }) = some (0x0E, 0x14, 0)
      ∧ after result (exec .dec (withInput base helloToken)) = some (0x06, 0x11, 0)
      ∧ after result (exec .dec (withInput (keyed calm) (txt "A"))) = some (0x0E, 0x06, 0)
      ∧ after result (exec .dec (withInput (keyed calm) (rep 0x41 96))) = some (0x0E, 0x07, 0)
      ∧ after result (exec .dec (withInput (keyed calm) (rep 0x41 98))) = some (0x0E, 0x08, 0)
      ∧ after result (exec .dec (withInput (keyed { calm with aesFault := 7, macFault := 9 }) helloToken)) = some (0x0E, 0x04, 7)
      ∧ after result (exec .dec (withInput (keyed calm) (0x67 :: rep 0x41 97))) = some (0x0E, 0x04, 0)
      ∧ after result (exec .dec (withInput (keyed { calm with macFault := 9 }) helloToken)) = some (0x0E, 0x05, 9) := by
  decide +kernel

/-- Both ways a length can be wrong, at 72 and 74 bytes. -/
theorem wit_BadTokenLengthRejectedBeforeCrypto :
    let s := withInput (keyed calm) (rep 0x41 96)
    let u := withInput (keyed calm) (rep 0x41 99)
    (s.ilen.toNat ≤ s.bufMax ∧ s.keyValid = true ∧ b64UrlDecode s.input = some (rep 0 72) ∧ (rep 0 72).length < 73)
      ∧ u.ilen.toNat ≤ u.bufMax ∧ u.keyValid = true ∧ b64UrlDecode u.input = some (rep 0 74)
      ∧ ((rep 0 74).length - 57) % 16 ≠ 0 := by decide +kernel

theorem wit_WrongVersionRejectedBeforeCrypto :
    let s := withInput (keyed calm) (rep 0x41 98)
    s.ilen.toNat ≤ s.bufMax ∧ s.keyValid = true ∧ b64UrlDecode s.input = some (rep 0 73) ∧ 73 ≤ (rep 0 73).length
      ∧ ((rep 0 73).length - 57) % 16 = 0 ∧ (rep 0 73).head? ≠ some 0x80 := by decide +kernel

/-- ENC of "hello" and the state in which its text is the input. -/
theorem wit_DecOpensWhatEncMade :
    ∃ s t u : State, s.ParamOk ∧ s.obuf.wf ∧ s.keyValid = true ∧ s.err = .ok ∧ exec (.enc false false) s = .next t
      ∧ t.err = .ok ∧ u.bufMax = s.bufMax ∧ u.obuf.wf ∧ u.sk = s.sk ∧ u.ek = s.ek ∧ u.keyValid = true ∧ u.err = .ok
      ∧ u.ilen = t.olen ∧ u.input = t.obuf.readN 0 t.olen.toNat ∧ u.draws.aesFault = 0x00 ∧ u.draws.macFault = 0x00 := by
  let s := withInput (keyed calm) (txt "hello")
  let t := s.takeDraws.complete (encPhases false false s) encCommit
  refine ⟨s, t, { s with ibuf := t.obuf, ilen := t.olen }, ?_, ?_, ?_, ?_, rfl, ?_, rfl, ?_, rfl, rfl, ?_, ?_, rfl, rfl, ?_, ?_⟩
  all_goals decide +kernel

theorem wit_ChangedTagClearsTheFlagOnly :
    ∃ (s u t : State) (tok tok' : Bytes), s.err = .ok ∧ u = { s with ibuf := u.ibuf, ilen := u.ilen } ∧ u.ilen.toNat ≤ u.bufMax
      ∧ b64UrlDecode s.input = some tok ∧ b64UrlDecode u.input = some tok' ∧ tok.length = tok'.length
      ∧ tok.take (tok.length - 32) = tok'.take (tok'.length - 32)
      ∧ tok.drop (tok.length - 32) ≠ tok'.drop (tok'.length - 32) ∧ exec .dec s = .next t ∧ t.err = .ok ∧ t.hmacOk = true := by
  refine ⟨withInput (keyed calm) helloToken, withInput (keyed calm) helloForged, _, (b64UrlDecode helloToken).getD [], forgedBytes,
    ?_, rfl, ?_, ?_, ?_, ?_, ?_, ?_, rfl, ?_, ?_⟩
  all_goals decide +kernel

/-- The shortest input, and the longest for BUF_MAX = 256. -/
theorem wit_B64eEncodesTheInput :
    let s := { base with ilen := 192 }
    s.ParamOk ∧ s.obuf.wf ∧ s.ilen.toNat ≤ s.bufMax ∧ b64Len s.ilen.toNat ≤ s.bufMax ∧ b64Len 0 ≤ s.bufMax
      ∧ ¬ b64Len 193 ≤ s.bufMax := by decide +kernel

theorem wit_B64dDecodesTheInput :
    let s := withInput base (txt "-_8")
    s.ParamOk ∧ s.obuf.wf ∧ s.ilen.toNat ≤ s.bufMax ∧ b64UrlDecode s.input = some [0xFB, 0xFF] := by decide +kernel

theorem wit_TranscoderErrorsInOrder :
    after result (exec .b64e { base with ilen := 257 }) = some (0x06, 0x14, 0)
      ∧ after result (exec .b64e { base with ilen := 193 }) = some (0x06, 0x13, 0)
      ∧ after result (exec .b64e { base with ilen := 192 }) = some (0x02, 0, 0)
      ∧ after result (exec .b64d { base with ilen := 257 }) = some (0x06, 0x14, 0)
      ∧ after result (exec .b64d (withInput base (txt "A"))) = some (0x06, 0x15, 0)
      ∧ after result (exec .b64d (withInput base (txt "AA"))) = some (0x02, 0, 0) := by decide +kernel

/-- The hypotheses with equal operands, with unequal lengths, and with ALEN = ILEN. -/
theorem wit_CteqComparesTheOperands :
    let s := { withInput base [1, 2, 1, 2] with alen := 2 }
    (s.ilen.toNat ≤ s.bufMax ∧ s.alen.toNat ≤ s.ilen.toNat ∧ s.ilen.toNat = 2 * s.alen.toNat)
      ∧ State.alen { s with alen := 4 } ≤ s.ilen ∧ 3 ≤ s.ilen.toNat := by decide +kernel

theorem wit_CteqErrorsInOrder :
    after result (exec .cteq { base with ilen := 257 }) = some (0x06, 0x14, 0)
      ∧ after result (exec .cteq { base with ilen := 8, alen := 9 }) = some (0x06, 0x14, 0)
      ∧ after result (exec .cteq { base with ilen := 8, alen := 8 }) = some (0x02, 0, 0) := by decide +kernel

theorem wit_SplitUndoesFrame :
    (be 8 1).length = 8 ∧ (be 16 2).length = 16 ∧ 0 < (be 16 3).length ∧ (be 16 3).length % 16 = 0 ∧ (be 32 4).length = 32 := by
  decide

/-- One whole block of padding: the least length. -/
theorem wit_UnpadChecksAllPaddingBytes : 16 ≤ (rep 0x10 16).length ∧ pkcs7Unpad (rep 0x10 16) = some [] := by decide

theorem wit_AesDecryptionInvertsEncryption : (counting 16).length = 16 ∧ (rep 0 16).length = 16 := by decide

theorem wit_CbcDecryptionInvertsEncryption :
    (counting 16).length = 16 ∧ (rep 0 16).length = 16 ∧ (counting 32).length % 16 = 0 := by decide

/-- A step that leaves a next state, from a state with the invariant. -/
theorem wit_EveryStepKeepsTheInvariant : ∃ s t : State, s.Inv ∧ step s = .next t ∧ s.busy = true := ⟨_, _, inv_inFlight, rfl, rfl⟩

/-- An in-flight command whose complete step is next, in a state with the invariant. -/
theorem wit_EveryStepKeepsTheInvariant_complete :
    ∃ s t : State, s.Inv ∧ step s = .next t ∧ s.busy = true ∧ s.SequencerNext ∧ t.done = true := by
  refine ⟨(withInput base [1, 2]).accept 0x04, _, ⟨?_, ?_, ?_, ?_, ?_, ?_, ?_⟩, rfl, ?_, ?_, ?_⟩
  all_goals decide +kernel

theorem wit_InputsAndOutputsHaveOneWriter :
    let s := { keyed calm with arrivals := [.write 0x00004 0x01] }
    (Instr.dec ≠ .srst ∧ ∃ t, exec .dec s = .next t)
      ∧ s.arrivals = .write 0x00004 0x01 :: [] ∧ (0x00004 : BusAddr).toNat ≠ 0 ∧ s.rst = false ∧ ∃ t, step s = .next t :=
  ⟨⟨by decide, _, rfl⟩, rfl, by decide, rfl, _, rfl⟩

theorem wit_ErrorsArePrecise :
    ∃ s t : State, Instr.dec ≠ .srst ∧ s.err = .ok ∧ exec .dec s = .next t ∧ t.err ≠ .ok :=
  ⟨base, _, by decide, rfl, rfl, by decide +kernel⟩

theorem wit_AcceptedCommandCompletes :
    ((keyed calm).accept 0x03).busy = true ∧ ((keyed calm).accept 0x03).rst = false
      ∧ ((keyed calm).accept 0x03).SequencerNext := by decide +kernel

/-- An ENC of no bytes asks for one AES block and two hashes. -/
theorem wit_CryptoWorkIsLinearInInput :
    ∃ t, exec (.enc false false) (keyed calm) = .next t ∧ aesCount t.requests = 1 ∧ t.requests.length = 5 :=
  ⟨_, rfl, by decide +kernel⟩

/-- Two bytes of output: OLEN = 2, and index 2 is the first past it. -/
theorem wit_OutputBufferIsZeroPastItsLength : ∃ s : State, s.Inv ∧ s.olen.toNat ≤ 2 ∧ s.obuf.read 1 ≠ 0x00 := by
  refine ⟨{ base with cmd := 0x05, done := true, obuf := Memory.cleared.writeN 0 [0xFB, 0xFF], olen := 2 },
    ⟨?_, ?_, ?_, ?_, ?_, ?_, ?_⟩, ?_, ?_⟩
  all_goals decide +kernel

end Sys2Proof.Tests
end

section
/-! SUPPORT. The status views and the reset state: STATUS as a number (spec/10_state.md rules R35, R40), and what every way into the
reset state leaves (rule R46; spec/47_control.md rule R205; spec/70_reset_and_hazards.md rules R280, R282). -/

namespace Sys2Proof.Machine

/-! ### The status views -/

theorem State.errf_eq_true_iff (s : State) : s.errf = true ↔ s.err.code ≠ 0x00 := by simp [State.errf]

/-- STATUS is its flags appended bit by bit, so its number is their Horner sum, EQ outermost. -/
theorem State.statusByte_toNat (s : State) :
    s.statusByte.toNat = s.busy.toNat + 2 * s.done.toNat + 4 * s.errf.toNat + 8 * s.keyValid.toNat + 16 * s.hmacOk.toNat
      + 32 * s.eq.toNat := by
  simp only [State.statusByte, BitVec.append_ofBool, BitVec.toNat_concat, BitVec.toNat_ofNat]
  omega

/-- Settles O12: the sum formula is `State.statusByte_toNat`, ERRF's meaning `State.errf_eq_true_iff`, and the `done` output is
STATUS.DONE by definition (spec/60_exceptions.md rule R255). -/
theorem statusByteIsTheSumOfFlags : Obligations.StatusByteIsTheSumOfFlags := fun s =>
  ⟨s.statusByte_toNat, s.errf_eq_true_iff, rfl⟩

/-! ### The reset state -/

@[simp] theorem zeroVec_getElem (n i : Nat) (h : i < n) : (zeroVec n)[i] = 0x00 := Vector.getElem_replicate h

/-- Every flag is 0 in the reset state, so their weighted sum is too. -/
@[simp] theorem State.resetBlock_statusByte (s : State) : s.resetBlock.statusByte = 0x00 := by
  have herrf : s.resetBlock.errf = false := rfl
  apply BitVec.eq_of_toNat_eq
  simp [State.statusByte_toNat, herrf]

theorem resetBlock_atReset (s : State) : s.resetBlock.AtReset where
  keys := by simp
  input := by simp [Memory.unlisted]
  iv := by simp
  ts := by simp
  output := by simp [Memory.unlisted]
  control := by simp
  flags := by simp
  errors := by simp [ErrCode.code]
  status := by simp
  working := by simp [Working.reset]

/-- A state that resetting the block would not change is at reset: what `resetBlock` leaves alone (the parameter, the pin, the
surroundings, the count of completions) is no element of rule R20. -/
theorem atReset_of_resetBlock_eq {s : State} (h : s.resetBlock = s) : s.AtReset := h ▸ resetBlock_atReset s

theorem setRst_asserted_atReset (s : State) : (s.setRst true).AtReset := atReset_of_resetBlock_eq rfl

/-- SRST's complete step (spec/47_control.md rule R205). -/
theorem exec_srst (s : State) : exec .srst s = .next { s.resetBlock with completed := s.completed + 1 } := rfl

/-- Settles O13: the initial state, the state the pin leaves and the state SRST leaves are each fixed by `State.resetBlock`. -/
theorem everyResetGivesTheResetValues : Obligations.EveryResetGivesTheResetValues := by
  refine ⟨?initial, ?pin, ?srst⟩
  case initial => exact atReset_of_resetBlock_eq rfl
  case pin =>
    intro s rest harrivals
    exact ⟨_, step_of_rst harrivals, setRst_asserted_atReset s.served⟩
  case srst =>
    intro s
    exact ⟨_, exec_srst s, atReset_of_resetBlock_eq rfl⟩

end Sys2Proof.Machine
end

section
/-! SUPPORT. What a host read returns (spec/20_memory.md rule R67): the place each mapped address names (rules R65, R66), the byte that
stands there, and that the read itself changes nothing. -/

namespace Sys2Proof.Machine

/-! ### Addresses -/

theorem toNat_ofNat_address {n : Nat} (h : n < 0x40000) : (BitVec.ofNat 18 n).toNat = n := by
  rw [BitVec.toNat_ofNat]
  omega

/-- The first sixteen bytes of the register map are the control registers. -/
theorem locateReg_control {off : Nat} (h : off < 0x10) : locateReg off = locateControl off := if_pos h

theorem locateReg_ts {i : Nat} (h : i < 8) : locateReg (0x10 + i) = .ts ⟨i, h⟩ := by
  unfold locateReg
  rw [if_neg (by omega), dif_pos (by omega)]
  simp

theorem locateReg_tsOut {i : Nat} (h : i < 8) : locateReg (0x18 + i) = .tsOut ⟨i, h⟩ := by
  unfold locateReg
  rw [if_neg (by omega), dif_neg (by omega), dif_pos (by omega)]
  simp

theorem locateReg_iv {i : Nat} (h : i < 16) : locateReg (0x20 + i) = .iv ⟨i, h⟩ := by
  unfold locateReg
  rw [if_neg (by omega), dif_neg (by omega), dif_neg (by omega), dif_pos (by omega)]
  simp

/-- An address written as a number below `0x10000` names what the register map has there. -/
theorem locate_ofNat_reg (bufMax : Nat) {off : Nat} (h : off < 0x10000) : locate bufMax (BitVec.ofNat 18 off) = locateReg off := by
  have ha : (BitVec.ofNat 18 off).toNat = off := toNat_ofNat_address (by omega)
  rw [locate_reg bufMax (by omega), ha]

theorem locate_ofNat_control (bufMax : Nat) {off : Nat} (h : off < 0x10) :
    locate bufMax (BitVec.ofNat 18 off) = locateControl off := by
  rw [locate_ofNat_reg bufMax (by omega), locateReg_control h]

/-- Nothing stands at the addresses of `Unmapped`: in REG the reserved bytes, above REG what neither buffer covers. -/
theorem locate_of_unmapped {bufMax : Nat} {a : BusAddr} (hn : bufMax ≤ 65535) (h : Unmapped bufMax a) :
    locate bufMax a = .unmapped := by
  by_cases hreg : a.toNat < 0x10000
  · rw [locate_reg bufMax hreg]
    exact locateReg_unmapped (by omega)
  · exact locate_unmapped hn (by omega) (by omega) (by omega)

/-! ### The byte at an address -/

theorem State.busByte_of_locate {s : State} {a : BusAddr} {l : Loc} (h : locate s.bufMax a = l) : s.busByte a = s.readLoc l :=
  congrArg s.readLoc h

/-- The two bytes of a 16-bit register make it up, the high one weighing 256 (spec/20_memory.md rule R66). -/
theorem highByte_lowByte_toNat (v : BitVec 16) : (highByte v).toNat * 256 + (lowByte v).toNat = v.toNat := by
  have hv : v.toNat < 65536 := v.isLt
  simp only [highByte, lowByte, BitVec.extractLsb'_toNat, Nat.shiftRight_eq_div_pow]
  omega

theorem toNat_of_halves {hi lo : Byte} {v : BitVec 16} (hhi : hi = highByte v) (hlo : lo = lowByte v) :
    hi.toNat * 256 + lo.toNat = v.toNat := by
  rw [hhi, hlo, highByte_lowByte_toNat]

theorem State.busByte_control (s : State) (off : Nat) (h : off < 0x10) :
    s.busByte (BitVec.ofNat 18 off) = s.readLoc (locateControl off) :=
  State.busByte_of_locate (locate_ofNat_control s.bufMax h)

theorem State.busByte_ts (s : State) {i : Nat} (h : i < 8) : s.busByte (BitVec.ofNat 18 (0x10 + i)) = s.ts[i] :=
  State.busByte_of_locate ((locate_ofNat_reg s.bufMax (by omega)).trans (locateReg_ts h))

theorem State.busByte_tsOut (s : State) {i : Nat} (h : i < 8) : s.busByte (BitVec.ofNat 18 (0x18 + i)) = s.tsOut[i] :=
  State.busByte_of_locate ((locate_ofNat_reg s.bufMax (by omega)).trans (locateReg_tsOut h))

theorem State.busByte_iv (s : State) {i : Nat} (h : i < 16) : s.busByte (BitVec.ofNat 18 (0x20 + i)) = s.iv[i] :=
  State.busByte_of_locate ((locate_ofNat_reg s.bufMax (by omega)).trans (locateReg_iv h))

theorem State.busByte_ibuf {s : State} (hn : s.bufMax ≤ 65535) {i : Nat} (h : i < s.bufMax) :
    s.busByte (BitVec.ofNat 18 (0x10000 + i)) = s.ibuf.read i :=
  State.busByte_of_locate ((locate_eq_ibuf hn).mpr ⟨h, toNat_ofNat_address (by omega)⟩)

theorem State.busByte_obuf {s : State} (hn : s.bufMax ≤ 65535) {i : Nat} (h : i < s.bufMax) :
    s.busByte (BitVec.ofNat 18 (0x20000 + i)) = s.obuf.read i :=
  State.busByte_of_locate ((locate_eq_obuf hn).mpr ⟨h, toNat_ofNat_address (by omega)⟩)

theorem State.busByte_unmapped {s : State} {a : BusAddr} (hn : s.bufMax ≤ 65535) (h : Unmapped s.bufMax a) :
    s.busByte a = 0x00 :=
  State.busByte_of_locate (locate_of_unmapped hn h)

/-- No place of the address map holds a key byte: what each of them holds is the same under any two keys. -/
theorem State.readLoc_of_keys (s : State) (k1 k2 : Vector Byte 16) (l : Loc) :
    State.readLoc { s with sk := k1, ek := k2 } l = s.readLoc l := by
  cases l <;> rfl

theorem State.busByte_of_keys (s : State) (k1 k2 : Vector Byte 16) (a : BusAddr) :
    State.busByte { s with sk := k1, ek := k2 } a = s.busByte a :=
  s.readLoc_of_keys k1 k2 (locate s.bufMax a)

/-! ### The read -/

/-- With the pin released a read takes its arrival, gives the host its byte, and does nothing more, BUSY or not. -/
theorem step_of_read_released {s : State} {a : BusAddr} {rest : List Arrival} (hr : s.rst = false)
    (h : s.arrivals = .read a :: rest) :
    step s = .next { s with arrivals := rest, reads := s.reads ++ [(a, s.busByte a)] } := by
  have hslot : s.afterSlot = { s with arrivals := rest } := by simp [State.afterSlot, h]
  rw [step_of_read h, served_of_released hr, hslot]
  rfl

/-- Settles O10: each clause is the rule of its space; a 16-bit register is put together from its two bytes by
`toNat_of_halves`. -/
theorem hostReadReturnsMappedByte : Obligations.HostReadReturnsMappedByte := by
  intro s hparam hr
  have hn : s.bufMax ≤ 65535 := hparam.2
  refine ⟨fun _ _ => step_of_read_released hr, ?cmd, ?status, ?err, ?errInfo, ?ilen, ?olen, ?alen, ?ivlen,
    fun _ => s.busByte_ts, fun _ => s.busByte_tsOut, fun _ => s.busByte_iv, fun _ => State.busByte_ibuf hn,
    fun _ => State.busByte_obuf hn, fun _ => State.busByte_unmapped hn, s.busByte_of_keys⟩
  case cmd => exact s.busByte_control 0x00 (by decide)
  case status => exact s.busByte_control 0x01 (by decide)
  case err => exact s.busByte_control 0x02 (by decide)
  case errInfo => exact s.busByte_control 0x03 (by decide)
  case ilen => exact toNat_of_halves (s.busByte_control 0x04 (by decide)) (s.busByte_control 0x05 (by decide))
  case olen => exact toNat_of_halves (s.busByte_control 0x06 (by decide)) (s.busByte_control 0x07 (by decide))
  case alen => exact toNat_of_halves (s.busByte_control 0x08 (by decide)) (s.busByte_control 0x09 (by decide))
  case ivlen => exact s.busByte_control 0x0A (by decide)

end Sys2Proof.Machine
end

section
/-! SUPPORT. The command byte and its fields determine each other (spec/30_encoding.md rule R90), the decoder answers an instruction
exactly on the byte that encodes it (rules R92, R94), and which bytes encode an instruction (rule R94). -/

namespace Sys2Proof

/-! ### The byte and its fields -/

/-- The four fields cover the byte: each bit of it is a bit of the field that holds it (spec/30_encoding.md rule R90). -/
theorem byteOf_formatOf (c : Byte) : byteOf (formatOf c) = c := by
  apply BitVec.eq_of_getLsbD_eq
  intro i hi
  simp only [byteOf, formatOf, BitVec.getLsbD_append, BitVec.getLsbD_extractLsb', BitVec.getLsbD_ofBool]
  interval_cases i <;> simp

@[simp] theorem formatOf_byteOf (f : FormatC) : formatOf (byteOf f) = f := by
  obtain ⟨z, f1, f0, op⟩ := f
  revert z f1 f0 op
  decide

/-- A byte's fields are `f` exactly when it is the byte with the fields `f`. -/
theorem formatOf_eq_iff {c : Byte} {f : FormatC} : formatOf c = f ↔ c = byteOf f :=
  ⟨fun h => h ▸ (byteOf_formatOf c).symm, fun h => h ▸ formatOf_byteOf f⟩

theorem byteOf_inj {f g : FormatC} : byteOf f = byteOf g ↔ f = g := by
  rw [← formatOf_eq_iff, formatOf_byteOf]

/-- The mask of row ENC clears the two flags and nothing else (spec/30_encoding.md rule R94). -/
theorem byteOf_and_flagMask (f : FormatC) : byteOf f &&& 0xCF = byteOf { f with f1 := false, f0 := false } := by
  obtain ⟨z, f1, f0, op⟩ := f
  revert z f1 f0 op
  decide

/-! ### The decoder's answers -/

/-- The decoder answers `i` on the fields that encode `i`, and on no others. -/
theorem decodeFormat_eq_ok_iff {f : FormatC} {i : Instr} : decodeFormat f = .ok i ↔ f = formatFor i := by
  constructor
  · -- The refusing arms are impossible; each of the other eight has fixed the fields of its instruction.
    fun_cases decodeFormat f <;> intro h <;> cases h
    all_goals
      cases f
      simp_all [formatFor]
  · rintro rfl
    cases i <;> rfl

theorem decode_eq_ok_iff {c : Byte} {i : Instr} : decode c = .ok i ↔ c = encode i :=
  decodeFormat_eq_ok_iff.trans formatOf_eq_iff

theorem decode_eq_error_iff {c : Byte} : (∃ e, decode c = .error e) ↔ ¬ ∃ i, c = encode i := by
  simp only [← decode_eq_ok_iff]
  cases decode c <;> simp

/-! ### The rows of the opcode table -/

/-- A row whose mask is all ones selects the one byte that encodes its instruction. -/
theorem decode_eq_ok_iff_fullMask {c m : Byte} {i : Instr} (hm : encode i = m) : decode c = .ok i ↔ c &&& 0xFF = m := by
  have hmask : c &&& 0xFF = c := BitVec.and_allOnes
  rw [hmask, decode_eq_ok_iff, hm]

/-- Row ENC selects every byte whose Z and OP are those of ENC, with the flags as they stand. -/
theorem decode_eq_ok_enc_iff {c : Byte} {ivsrc tssrc : Bool} :
    decode c = .ok (.enc ivsrc tssrc) ↔ c &&& 0xCF = 0x02 ∧ ivsrc = c.getLsbD 4 ∧ tssrc = c.getLsbD 5 := by
  have hmatch : (0x02 : Byte) = byteOf { z := 0, f1 := false, f0 := false, op := 0x2 } := rfl
  have hmask : c &&& 0xCF = 0x02 ↔ (formatOf c).z = 0 ∧ (formatOf c).op = 0x2 := by
    rw [← byteOf_formatOf c, byteOf_and_flagMask, hmatch, byteOf_inj, formatOf_byteOf]
    simp
  rw [hmask, decode, decodeFormat_eq_ok_iff]
  simp only [formatOf, formatFor, FormatC.mk.injEq]
  tauto

/-- The instructions in the order of their bytes. -/
def instrsByByte : List Instr :=
  [.keyldRaw, .enc false false, .dec, .b64e, .b64d, .cteq, .srst, .keyldB64, .enc true false, .enc false true, .enc true true]

theorem mem_instrsByByte (i : Instr) : i ∈ instrsByByte := by
  cases i with
  | enc ivsrc tssrc => cases ivsrc <;> cases tssrc <;> decide
  | _ => decide

/-- The eleven legal bytes of spec/30_encoding.md rule R94. -/
theorem instrsByByte_bytes : instrsByByte.map (fun i => (encode i).toNat) =
    [0x01, 0x02, 0x03, 0x04, 0x05, 0x06, 0x0F, 0x11, 0x12, 0x22, 0x32] := rfl

theorem exists_encode_iff_mem {c : Byte} :
    (∃ i, c = encode i) ↔ c.toNat ∈ [0x01, 0x02, 0x03, 0x04, 0x05, 0x06, 0x0F, 0x11, 0x12, 0x22, 0x32] := by
  rw [← instrsByByte_bytes, List.mem_map]
  simp only [mem_instrsByByte, true_and, BitVec.toNat_inj, eq_comm]

/-- Settles O2: the rows with a full mask are the bytes of their instructions, ENC is `decode_eq_ok_enc_iff`, and a byte is refused
when it encodes no instruction. -/
theorem decodeFollowsOpcodeTable : Obligations.DecodeFollowsOpcodeTable := fun _ =>
  ⟨decode_eq_ok_iff_fullMask rfl, decode_eq_ok_iff_fullMask rfl, fun _ _ => decode_eq_ok_enc_iff, decode_eq_ok_iff_fullMask rfl,
    decode_eq_ok_iff_fullMask rfl, decode_eq_ok_iff_fullMask rfl, decode_eq_ok_iff_fullMask rfl, decode_eq_ok_iff_fullMask rfl,
    decode_eq_error_iff.trans (not_congr exists_encode_iff_mem)⟩

end Sys2Proof
end

section
/-! SUPPORT. The token framer: which lengths `LengthOk` admits (spec/40_token_framer.md rule R112), and what `Split` finds in a framed
token (rules R113, R114). -/

namespace Sys2Proof.Machine

/-! ### The length test -/

theorem lengthOk_eq_true_iff {len : Nat} : lengthOk len = true ↔ 73 ≤ len ∧ (len - 57) % 16 = 0 := by
  simp only [lengthOk, Bool.and_eq_true, decide_eq_true_eq]

/-- A valid length is the 57 bytes around the ciphertext and at least one block of ciphertext. -/
theorem lengthOk_iff_exists_blocks {len : Nat} : lengthOk len = true ↔ ∃ k, 1 ≤ k ∧ len = 57 + 16 * k := by
  rw [lengthOk_eq_true_iff]
  constructor
  · rintro ⟨hmin, hmod⟩
    exact ⟨(len - 57) / 16, by omega, by omega⟩
  · rintro ⟨k, hk, rfl⟩
    exact ⟨by omega, by omega⟩

/-- Settles O36: the test is `lengthOk_eq_true_iff`, its solutions `lengthOk_iff_exists_blocks`; the rule's single lengths are computed. -/
theorem lengthOkIsTheLengthInvariant : Obligations.LengthOkIsTheLengthInvariant :=
  ⟨fun _ => lengthOk_eq_true_iff, fun _ => lengthOk_iff_exists_blocks, by decide⟩

/-! ### Framing and splitting -/

/-- The slice between the ends of a part of a string is that part. -/
theorem slice_append_middle (pre mid post : Bytes) {i j : Nat} (hi : i = pre.length) (hj : j = i + mid.length) :
    slice (pre ++ mid ++ post) i j = mid := by
  subst hi hj
  rw [slice, List.append_assoc, List.drop_left, Nat.add_sub_cancel_left, List.take_left]

@[simp] theorem tokenBody_length (ts iv ct : Bytes) : (tokenBody ts iv ct).length = 1 + ts.length + iv.length + ct.length := by
  simp [tokenBody]
  omega

@[simp] theorem frameToken_length (body tag : Bytes) : (frameToken body tag).length = body.length + tag.length :=
  List.length_append

theorem frameToken_tokenBody_length {ts iv ct tag : Bytes} (hts : ts.length = 8) (hiv : iv.length = 16) (htag : tag.length = 32) :
    (frameToken (tokenBody ts iv ct) tag).length = 57 + ct.length := by
  rw [frameToken_length, tokenBody_length]
  omega

/-- Split cuts a 32-byte tag off whatever body it was framed with. -/
theorem splitToken_frameToken_body_tag {body tag : Bytes} (htag : tag.length = 32) :
    (splitToken (frameToken body tag)).body = body ∧ (splitToken (frameToken body tag)).tag = tag := by
  have hlen : (frameToken body tag).length = body.length + 32 := by rw [frameToken_length, htag]
  constructor
  · exact slice_append_middle [] body tag rfl (by simp [hlen])
  · have hend : frameToken body tag = body ++ tag ++ [] := (List.append_nil _).symm
    simp only [splitToken, hlen]
    rw [hend]
    exact slice_append_middle body tag [] (by omega) (by omega)

/-- Each field stands at its offsets of rule R111: the framed token is regrouped as what precedes the field, the field, and the rest. -/
theorem splitToken_frameToken_tokenBody {ts iv ct tag : Bytes} (hts : ts.length = 8) (hiv : iv.length = 16)
    (htag : tag.length = 32) :
    splitToken (frameToken (tokenBody ts iv ct) tag)
      = { ver := tokenVersion, ts := ts, iv := iv, ct := ct, tag := tag, body := tokenBody ts iv ct } := by
  have hlen := frameToken_tokenBody_length (ct := ct) hts hiv htag
  have atTs : frameToken (tokenBody ts iv ct) tag = [tokenVersion] ++ ts ++ (iv ++ ct ++ tag) := by
    simp [frameToken, tokenBody]
  have atIv : frameToken (tokenBody ts iv ct) tag = ([tokenVersion] ++ ts) ++ iv ++ (ct ++ tag) := by
    simp [frameToken, tokenBody]
  have atCt : frameToken (tokenBody ts iv ct) tag = ([tokenVersion] ++ ts ++ iv) ++ ct ++ tag := rfl
  obtain ⟨hbody, htagField⟩ := splitToken_frameToken_body_tag (body := tokenBody ts iv ct) htag
  rw [TokenFields.mk.injEq]
  refine ⟨?version, ?timestamp, ?initVector, ?ciphertext, htagField, hbody⟩
  case version => rfl
  case timestamp =>
    rw [atTs]
    exact slice_append_middle _ ts _ rfl (by omega)
  case initVector =>
    rw [atIv]
    exact slice_append_middle _ iv _ (by simp [hts]) (by omega)
  case ciphertext =>
    simp only [splitToken, hlen]
    rw [atCt]
    exact slice_append_middle _ ct _ (by simp [hts, hiv]) (by omega)

/-- Settles O37: the ciphertext's blocks are the `k` of `lengthOk_iff_exists_blocks`, and the fields are
`splitToken_frameToken_tokenBody`. -/
theorem splitUndoesFrame : Obligations.SplitUndoesFrame := by
  intro ts iv ct tag hts hiv hpos hblocks htag
  have hlen := frameToken_tokenBody_length (ct := ct) hts hiv htag
  have hok : lengthOk (frameToken (tokenBody ts iv ct) tag).length = true := by
    rw [hlen, lengthOk_iff_exists_blocks]
    exact ⟨ct.length / 16, by omega, by omega⟩
  exact ⟨rfl, rfl, hlen, hok, splitToken_frameToken_tokenBody hts hiv htag⟩

end Sys2Proof.Machine
end

section
/-! SUPPORT. The base64url decoder undoes the encoder (spec/45_base64url.md rule R185), and both key loads end alike on one key
(spec/42_key_load.md rules R145, R146). -/

namespace Sys2Proof.Machine

/-! ### The bytes of a number -/

theorem unbe_concat (s : Bytes) (b : Byte) : unbe (s ++ [b]) = unbe s * 256 + b.toNat := by
  simp [unbe]

/-- The last byte of `be` is the lowest one; the rest is `be` of what stands above it. -/
theorem be_succ (n v : Nat) : be (n + 1) v = be n (v / 256) ++ [BitVec.ofNat 8 (v % 256)] := by
  simp only [be, List.range_succ, List.map_append, List.map_cons, List.map_nil]
  congr 1
  · apply List.map_congr_left
    intro i hi
    have hi : i < n := List.mem_range.mp hi
    have hexp : 8 * (n + 1 - 1 - i) = 8 + 8 * (n - 1 - i) := by omega
    have hpow : 2 ^ (8 * (n + 1 - 1 - i)) = 256 * 2 ^ (8 * (n - 1 - i)) := by
      rw [hexp, pow_add]
      norm_num
    rw [hpow, ← Nat.div_div_eq_div_mul]
  · simp

/-- `be` undoes `unbe` (spec/00_scope.md rule R10). -/
theorem be_unbe (s : Bytes) : be s.length (unbe s) = s := by
  induction s using List.reverseRecOn with
  | nil => rfl
  | append_singleton s b ih =>
    have hb : b.toNat < 256 := b.isLt
    have hhigh : (unbe s * 256 + b.toNat) / 256 = unbe s := by omega
    have hlow : (unbe s * 256 + b.toNat) % 256 = b.toNat := by omega
    rw [List.length_append, List.length_singleton, unbe_concat, be_succ, hhigh, hlow, ih, BitVec.ofNat_toNat, BitVec.setWidth_eq]

/-! ### The 6-bit values that the encoder writes -/

/-- The values whose characters `b64UrlEncode` writes: the bits of the input six by six, the last group filled with zero bits. -/
def sextets : Bytes → List Nat
  | x :: y :: z :: rest =>
    let v := x.toNat * 65536 + y.toNat * 256 + z.toNat
    v / 2 ^ 18 % 64 :: v / 2 ^ 12 % 64 :: v / 2 ^ 6 % 64 :: v % 64 :: sextets rest
  | [x, y] => [x.toNat / 4, x.toNat % 4 * 16 + y.toNat / 16, y.toNat % 16 * 4]
  | [x] => [x.toNat / 4, x.toNat % 4 * 16]
  | [] => []

theorem b64UrlEncode_eq_map_sextets (s : Bytes) : b64UrlEncode s = (sextets s).map urlChar := by
  induction s using sextets.induct with
  | case1 x y z rest ih => simp [b64UrlEncode, sextets, ih]
  | case2 x y => rfl
  | case3 x => rfl
  | case4 => rfl

theorem sextets_lt (s : Bytes) : ∀ v ∈ sextets s, v < 64 := by
  induction s using sextets.induct with
  | case1 x y z rest ih =>
    simp only [sextets, List.forall_mem_cons]
    exact ⟨by omega, by omega, by omega, by omega, ih⟩
  | case2 x y =>
    have hx : x.toNat < 256 := x.isLt
    have hy : y.toNat < 256 := y.isLt
    simp only [sextets, List.forall_mem_cons]
    exact ⟨by omega, by omega, by omega, by simp⟩
  | case3 x =>
    have hx : x.toNat < 256 := x.isLt
    simp only [sextets, List.forall_mem_cons]
    exact ⟨by omega, by omega, by simp⟩
  | case4 => simp [sextets]

/-- The four 6-bit digits of a 24-bit number, read behind `acc`, write that number behind `acc`. -/
theorem four_digits_of_lt (acc : Nat) {v : Nat} (hv : v < 2 ^ 24) :
    (((acc * 64 + v / 2 ^ 18 % 64) * 64 + v / 2 ^ 12 % 64) * 64 + v / 2 ^ 6 % 64) * 64 + v % 64 = acc * 2 ^ 24 + v := by
  omega

/-- After any digits read so far, the sextets of `s` write the number of `s` followed by the zero fill. The generalisation over
`acc` lets the induction go from the front, as the encoder does. -/
theorem foldl_sextets (s : Bytes) (acc : Nat) :
    (sextets s).foldl (fun acc v => acc * 64 + v) acc =
      s.foldl (fun acc b => acc * 256 + b.toNat) acc * 2 ^ (6 * b64Len s.length - 8 * s.length) := by
  induction s using sextets.induct generalizing acc with
  | case1 x y z rest ih =>
    have hx : x.toNat < 256 := x.isLt
    have hy : y.toNat < 256 := y.isLt
    have hz : z.toNat < 256 := z.isLt
    have hfill : 6 * b64Len (rest.length + 1 + 1 + 1) - 8 * (rest.length + 1 + 1 + 1)
        = 6 * b64Len rest.length - 8 * rest.length := by
      simp only [b64Len]; omega
    have hgroup : acc * 2 ^ 24 + (x.toNat * 65536 + y.toNat * 256 + z.toNat)
        = ((acc * 256 + x.toNat) * 256 + y.toNat) * 256 + z.toNat := by omega
    have hv : x.toNat * 65536 + y.toNat * 256 + z.toNat < 2 ^ 24 := by omega
    simp only [sextets, List.foldl_cons, List.length_cons, hfill, four_digits_of_lt acc hv, hgroup, ih]
  | case2 x y =>
    have hfill : 6 * b64Len 2 - 8 * 2 = 2 := rfl
    simp only [sextets, List.foldl_cons, List.foldl_nil, List.length_cons, List.length_nil, Nat.zero_add, Nat.reduceAdd, hfill]
    omega
  | case3 x =>
    have hfill : 6 * b64Len 1 - 8 * 1 = 4 := rfl
    simp only [sextets, List.foldl_cons, List.foldl_nil, List.length_cons, List.length_nil, Nat.zero_add, hfill]
    omega
  | case4 => simp [sextets, b64Len]

theorem digitsValue_sextets (s : Bytes) :
    digitsValue (sextets s) = unbe s * 2 ^ (6 * b64Len s.length - 8 * s.length) := foldl_sextets s 0

/-! ### Decoding what the encoder wrote -/

theorem dataValues_map_urlChar {vs : List Nat} (h : ∀ v ∈ vs, v < 64) :
    dataValues (vs.map fun v => unsubstitute (urlChar v)) = some vs := by
  induction vs with
  | nil => rfl
  | cons v vs ih =>
    obtain ⟨hv, hvs⟩ := List.forall_mem_cons.mp h
    simp [dataValues, stdVal_urlChar hv, ih hvs]

/-- The encoder's text after step 1 of the decoder: the standard alphabet's characters of the sextets. -/
theorem map_unsubstitute_b64UrlEncode (s : Bytes) :
    (b64UrlEncode s).map unsubstitute = (sextets s).map fun v => unsubstitute (urlChar v) := by
  rw [b64UrlEncode_eq_map_sextets, List.map_map, Function.comp_def]

theorem dataValues_b64UrlEncode (s : Bytes) : dataValues ((b64UrlEncode s).map unsubstitute) = some (sextets s) := by
  rw [map_unsubstitute_b64UrlEncode, dataValues_map_urlChar (sextets_lt s)]

theorem ne_pad_of_mem_b64UrlEncode {s : Bytes} {c : Byte} (hc : c ∈ (b64UrlEncode s).map unsubstitute) : c ≠ 0x3D := by
  rw [map_unsubstitute_b64UrlEncode, List.mem_map] at hc
  obtain ⟨v, hv, rfl⟩ := hc
  exact urlChar_ne_pad (sextets_lt s v hv)

/-- Behind data without `=`, the pads at the end are the ones that were appended. -/
theorem trailingPads_append_rep {data : Bytes} (h : ∀ c ∈ data, c ≠ 0x3D) (p : Nat) :
    trailingPads (data ++ rep 0x3D p) = p := by
  have hdata : data.reverse.takeWhile (fun c => c = 0x3D) = [] := by
    rw [List.takeWhile_eq_nil_iff]
    intro hpos
    simpa using h _ (List.mem_reverse.mp (List.getElem_mem hpos))
  rw [trailingPads, rep, List.reverse_append, List.reverse_replicate, List.takeWhile_append_of_pos (by simp), hdata]
  simp

/-- Standard decode of padded data: at most two pads behind data in the alphabet leave the data's number, cut to whole bytes. -/
theorem stdDecode_append_rep {data : Bytes} {vs : List Nat} {p : Nat} (hpads : ∀ c ∈ data, c ≠ 0x3D) (hp : p ≤ 2)
    (hvs : dataValues data = some vs) :
    stdDecode (data ++ rep 0x3D p) =
      some (be (6 * data.length / 8) (digitsValue vs / 2 ^ (6 * data.length - 8 * (6 * data.length / 8)))) := by
  have hlen : (data ++ rep 0x3D p).length - p = data.length := by simp
  simp only [stdDecode, trailingPads_append_rep hpads, if_neg (Nat.not_lt.mpr hp), hlen, List.take_left, hvs]

/-- The round trip of spec/45_base64url.md rule R185: the regrouped bits are the input's and the zero fill, which is dropped. -/
theorem b64UrlDecode_b64UrlEncode (s : Bytes) : b64UrlDecode (b64UrlEncode s) = some s := by
  have hlen : ((b64UrlEncode s).map unsubstitute).length = b64Len s.length := by simp
  have hpads : (4 - ((b64UrlEncode s).map unsubstitute).length % 4) % 4 ≤ 2 := by rw [hlen, b64Len]; omega
  have hbytes : 6 * b64Len s.length / 8 = s.length := by rw [b64Len]; omega
  calc b64UrlDecode (b64UrlEncode s)
    _ = some (be s.length (digitsValue (sextets s) / 2 ^ (6 * b64Len s.length - 8 * s.length))) := by
      rw [b64UrlDecode, repad, stdDecode_append_rep (fun _ => ne_pad_of_mem_b64UrlEncode) hpads (dataValues_b64UrlEncode s), hlen,
        hbytes]
    _ = some (be s.length (unbe s)) := by rw [digitsValue_sextets, Nat.mul_div_cancel _ (Nat.two_pow_pos _)]
    _ = some s := by rw [be_unbe]

/-! ### The two key loads -/

/-- What a KEYLD of the 32 bytes `raw` that succeeds leaves, in either form. -/
def keyLoaded (raw : Bytes) (s : State) : State :=
  (keyCommit { Flight.start with inp := raw, sk := keySk raw, ek := keyEk raw } s).finish []

theorem exec_keyldRaw_of_admitted {s : State} (hlen : s.ilen.toNat ≤ s.bufMax) (hkey : s.keyValid = false)
    (hraw : s.input.length = 32) : exec .keyldRaw s = .next (keyLoaded s.input s) := by
  have hrun := run_keyldRawPhases s
  rw [if_neg (Nat.not_lt.mpr hlen), if_neg (by simp [hkey]), if_neg (not_not.mpr hraw)] at hrun
  exact congrArg Host.Outcome.next (complete_of_ok hrun)

theorem exec_keyldB64_of_admitted {s : State} {raw : Bytes} (hlen : s.ilen.toNat ≤ s.bufMax) (hkey : s.keyValid = false)
    (hdecode : b64UrlDecode s.input = some raw) (hraw : raw.length = 32) :
    exec .keyldB64 s = .next (keyLoaded raw s) := by
  have hrun := run_keyldB64Phases s
  rw [if_neg (Nat.not_lt.mpr hlen), if_neg (by simp [hkey]), hdecode] at hrun
  simp only [if_neg (not_not.mpr hraw)] at hrun
  exact congrArg Host.Outcome.next (complete_of_ok hrun)

/-- Settles O20: the text decodes to the key (`b64UrlDecode_b64UrlEncode`), so both forms leave `keyLoaded` of the same bytes, and
what it puts into SK and EK depends on the bytes alone. -/
theorem bothKeyFormsLoadTheSameKey : Obligations.BothKeyFormsLoadTheSameKey := by
  intro raw s u hraw htext hbytes hsLen huLen hsKey huKey
  have hdecode : b64UrlDecode s.input = some raw := by rw [htext, b64UrlDecode_b64UrlEncode]
  have hB64 := exec_keyldB64_of_admitted hsLen hsKey hdecode hraw
  have hRaw := exec_keyldRaw_of_admitted huLen huKey (hbytes ▸ hraw)
  rw [hbytes] at hRaw
  exact ⟨keyLoaded raw s, keyLoaded raw u, hB64, hRaw, rfl, rfl, rfl, rfl⟩

end Sys2Proof.Machine
end

section
/-! SUPPORT. How DEC ends, early or late: the refusals of a binary token by its length and by its version, before any cryptographic
request (spec/44_token_decode.md rules R165, R168, R169), and the path on which the token opens. -/

namespace Sys2Proof.Machine

/-! ### The two ends of DEC -/

theorem exec_dec_of_error {s : State} {e : Raise} (hrun : runPhases (decPhases s) Flight.start = .error e) :
    exec .dec s = .next (s.takeDraws.raise e) :=
  congrArg Host.Outcome.next (complete_of_error hrun)

theorem exec_dec_of_ok {s : State} {f : Flight} (hrun : runPhases (decPhases s) Flight.start = .ok f) :
    exec .dec s = .next ((decCommit f s.takeDraws).finish f.asked) :=
  congrArg Host.Outcome.next (complete_of_ok hrun)

/-- An error raised before anything was asked of a port leaves no request behind. -/
theorem exec_dec_rejects_before_requests {s : State} {err : ErrCode} {info : Byte}
    (hrun : runPhases (decPhases s) Flight.start = .error ⟨err, info, []⟩) :
    ∃ t, exec .dec s = .next t ∧ EndsInError s t err info ∧ t.requests = s.requests :=
  ⟨_, exec_dec_of_error hrun, (raise_endsInError s.takeDraws _).of_takeDraws, by simp⟩

/-! ### DEC from phase D2 on -/

/-- With the input admitted and decoded (phases D_ADMIT and D1 passed), the binary token decides how DEC goes on. -/
theorem run_decPhases_of_decoded {s : State} {tok : Bytes} (hlen : s.ilen.toNat ≤ s.bufMax) (hkey : s.keyValid = true)
    (hdecode : b64UrlDecode s.input = some tok) :
    runPhases (decPhases s) Flight.start =
      if lengthOk tok.length = false then .error ⟨.invalidTokenFormat, 0, []⟩
      else if (splitToken tok).ver ≠ tokenVersion then .error ⟨.unknownVersion, 0, []⟩
      else if s.draws.aesFault ≠ 0 then .error ⟨.cipherError, s.draws.aesFault, []⟩
      else match decryptPayload s.ek.toList (toVec 16 (splitToken tok).iv).toList (splitToken tok).ct with
        | none => .error ⟨.cipherError, 0, decryptAsks s.ek.toList (splitToken tok).ct⟩
        | some p =>
          if s.draws.macFault ≠ 0 then
            .error ⟨.authError, s.draws.macFault, decryptAsks s.ek.toList (splitToken tok).ct⟩
          else .ok (decFlight s tok p) := by
  have hrun := run_decPhases s
  rw [if_neg (Nat.not_lt.mpr hlen), if_neg (by simp [hkey]), hdecode] at hrun
  exact hrun

/-- Settles O27: a length that `lengthOk` refuses ends DEC in phase D2, where nothing has been asked yet. -/
theorem badTokenLengthRejectedBeforeCrypto : Obligations.BadTokenLengthRejectedBeforeCrypto := by
  intro s tok hlen hkey hdecode hbad
  have hrefused : lengthOk tok.length = false := by
    rw [← Bool.not_eq_true, lengthOk_eq_true_iff]
    omega
  have hrun := run_decPhases_of_decoded hlen hkey hdecode
  rw [if_pos hrefused] at hrun
  exact exec_dec_rejects_before_requests hrun

/-- Settles O28: past phase D2 the first byte of the token is its version field (`splitToken_fields`), and another one than 0x80
ends DEC in phase D4, where nothing has been asked yet. -/
theorem wrongVersionRejectedBeforeCrypto : Obligations.WrongVersionRejectedBeforeCrypto := by
  intro s tok hlen hkey hdecode hmin haligned hhead
  have hok : lengthOk tok.length = true := lengthOk_eq_true_iff.mpr ⟨hmin, haligned⟩
  obtain ⟨-, -, hversion⟩ := splitToken_fields hok
  have hrun := run_decPhases_of_decoded hlen hkey hdecode
  rw [if_neg (by simp [hok]), if_pos (mt hversion.mp hhead)] at hrun
  exact exec_dec_rejects_before_requests hrun

/-- The path on which the token opens: a valid length and version, no fault drawn, and a ciphertext that unpads to `p`. -/
theorem exec_dec_of_opened {s : State} {tok p : Bytes} (hlen : s.ilen.toNat ≤ s.bufMax) (hkey : s.keyValid = true)
    (hdecode : b64UrlDecode s.input = some tok) (hok : lengthOk tok.length = true)
    (hversion : (splitToken tok).ver = tokenVersion) (haes : s.draws.aesFault = 0) (hmac : s.draws.macFault = 0)
    (hplain : decryptPayload s.ek.toList (toVec 16 (splitToken tok).iv).toList (splitToken tok).ct = some p) :
    exec .dec s = .next ((decCommit (decFlight s tok p) s.takeDraws).finish (decFlight s tok p).asked) := by
  have hrun := run_decPhases_of_decoded hlen hkey hdecode
  rw [if_neg (by simp [hok]), if_neg (not_not.mpr hversion), if_neg (not_not.mpr haes), hplain] at hrun
  simp only [if_neg (not_not.mpr hmac)] at hrun
  exact exec_dec_of_ok hrun

end Sys2Proof.Machine
end

section
/-! SUPPORT. AES-128 decryption undoes encryption (spec/48_primitives_aes_sha256.md rule R221): each transformation of a round has
its inverse, and the rounds are undone from the last to the first. -/

namespace Sys2Proof.Machine

/-! ### The byte and row transformations -/

theorem invSbox_sbox (a : Byte) : invSbox (sbox a) = a := by
  revert a
  decide +kernel

theorem invSubBytes_subBytes (s : Bytes) : invSubBytes (subBytes s) = s := by
  simp [invSubBytes, subBytes, Function.comp_def, invSbox_sbox]

theorem invShiftRows_shiftRows {s : Bytes} (h : s.length = 16) : invShiftRows (shiftRows s) = s := by
  match s, h with
  | [_, _, _, _, _, _, _, _, _, _, _, _, _, _, _, _], _ => rfl

theorem addRoundKey_addRoundKey {s k : Bytes} (h : s.length = k.length) : addRoundKey (addRoundKey s k) k = s :=
  xorb_xorb_cancel h

/-! ### Multiplication in GF(2^8) -/

theorem xtime_xor (a b : Byte) : xtime (a ^^^ b) = xtime a ^^^ xtime b := by
  have hxtime : ∀ x : Byte, xtime x = (x <<< 1) ^^^ (if x.getLsbD 7 then 0x1B else 0) := by
    intro x
    unfold xtime
    split <;> simp
  have hcarry : (if (a ^^^ b).getLsbD 7 then (0x1B : Byte) else 0)
      = (if a.getLsbD 7 then 0x1B else 0) ^^^ (if b.getLsbD 7 then 0x1B else 0) := by
    rw [BitVec.getLsbD_xor]
    cases a.getLsbD 7 <;> cases b.getLsbD 7 <;> rfl
  rw [hxtime, hxtime a, hxtime b, hcarry, BitVec.shiftLeft_xor_distrib]
  ac_rfl

theorem xtimes_xor (j : Nat) (a b : Byte) : xtimes j (a ^^^ b) = xtimes j a ^^^ xtimes j b := by
  induction j with
  | zero => rfl
  | succ j ih => rw [xtimes, xtimes, xtimes, ih, xtime_xor]

/-- Multiplication distributes over addition (spec/48 rule R215), which is why a whole column can be handled byte by byte. -/
theorem gmul_xor (a b c : Byte) : gmul (a ^^^ b) c = gmul a c ^^^ gmul b c := by
  have hfold : ∀ (js : List Nat) (x y : Byte),
      js.foldl (fun acc j => if c.getLsbD j then acc ^^^ xtimes j (a ^^^ b) else acc) (x ^^^ y)
        = js.foldl (fun acc j => if c.getLsbD j then acc ^^^ xtimes j a else acc) x
          ^^^ js.foldl (fun acc j => if c.getLsbD j then acc ^^^ xtimes j b else acc) y := by
    intro js
    induction js with
    | nil => exact fun _ _ => rfl
    | cons j js ih =>
      intro x y
      simp only [List.foldl_cons]
      by_cases hbit : c.getLsbD j = true
      · rw [if_pos hbit, if_pos hbit, if_pos hbit, ← ih, xtimes_xor]
        congr 1
        ac_rfl
      · rw [if_neg hbit, if_neg hbit, if_neg hbit, ih]
  simpa [gmul] using hfold (List.range 8) 0 0

/-- The entries of the product of the matrices of InvMixColumns and MixColumns (spec/48 rule R222), applied to a byte: both are
circulant, so there is one entry on the diagonal, 1, and three kinds off it, all 0. -/
theorem mixColumns_matrix_entries (a : Byte) :
    gmul (gmul a 2) 14 ^^^ gmul a 11 ^^^ gmul a 13 ^^^ gmul (gmul a 3) 9 = a
      ∧ gmul (gmul a 3) 14 ^^^ gmul (gmul a 2) 11 ^^^ gmul a 13 ^^^ gmul a 9 = 0
      ∧ gmul a 14 ^^^ gmul (gmul a 3) 11 ^^^ gmul (gmul a 2) 13 ^^^ gmul a 9 = 0
      ∧ gmul a 14 ^^^ gmul a 11 ^^^ gmul (gmul a 3) 13 ^^^ gmul (gmul a 2) 9 = 0 := by
  revert a
  decide +kernel

/-- One row of InvMixColumns on a mixed column gives back the byte of that row; the rows are this one with the column rotated. -/
theorem invMixRow_mixColumn (a0 a1 a2 a3 : Byte) :
    gmul (gmul a0 2 ^^^ gmul a1 3 ^^^ a2 ^^^ a3) 14 ^^^ gmul (a0 ^^^ gmul a1 2 ^^^ gmul a2 3 ^^^ a3) 11
      ^^^ gmul (a0 ^^^ a1 ^^^ gmul a2 2 ^^^ gmul a3 3) 13 ^^^ gmul (gmul a0 3 ^^^ a1 ^^^ a2 ^^^ gmul a3 2) 9 = a0 := by
  obtain ⟨h0, -, -, -⟩ := mixColumns_matrix_entries a0
  obtain ⟨-, h1, -, -⟩ := mixColumns_matrix_entries a1
  obtain ⟨-, -, h2, -⟩ := mixColumns_matrix_entries a2
  obtain ⟨-, -, -, h3⟩ := mixColumns_matrix_entries a3
  simp only [gmul_xor]
  calc _
    _ = (gmul (gmul a0 2) 14 ^^^ gmul a0 11 ^^^ gmul a0 13 ^^^ gmul (gmul a0 3) 9)
        ^^^ (gmul (gmul a1 3) 14 ^^^ gmul (gmul a1 2) 11 ^^^ gmul a1 13 ^^^ gmul a1 9)
        ^^^ (gmul a2 14 ^^^ gmul (gmul a2 3) 11 ^^^ gmul (gmul a2 2) 13 ^^^ gmul a2 9)
        ^^^ (gmul a3 14 ^^^ gmul a3 11 ^^^ gmul (gmul a3 3) 13 ^^^ gmul (gmul a3 2) 9) := by ac_rfl
    _ = a0 := by rw [h0, h1, h2, h3]; simp

theorem invMixColumns_mixColumns {s : Bytes} (h : s.length % 4 = 0) : invMixColumns (mixColumns s) = s := by
  induction s using mixColumns.induct with
  | case1 a0 a1 a2 a3 rest ih =>
    simp only [List.length_cons] at h
    have row0 := invMixRow_mixColumn a0 a1 a2 a3
    have row1 := invMixRow_mixColumn a1 a2 a3 a0
    have row2 := invMixRow_mixColumn a2 a3 a0 a1
    have row3 := invMixRow_mixColumn a3 a0 a1 a2
    simp only [mixColumns, invMixColumns, ih (by omega), List.cons.injEq, and_true]
    refine ⟨row0, ?_, ?_, ?_⟩
    · refine Eq.trans ?_ row1; ac_rfl
    · refine Eq.trans ?_ row2; ac_rfl
    · refine Eq.trans ?_ row3; ac_rfl
  | case2 s hshort =>
    match s with
    | [] => rfl
    | [_] | [_, _] | [_, _, _] => simp at h
    | a0 :: a1 :: a2 :: a3 :: rest => exact absurd rfl (hshort a0 a1 a2 a3 rest)

/-! ### The rounds -/

/-- The state of decryption stands between two rounds where that of encryption stands after SubBytes and ShiftRows; so seen, a
round of decryption undoes the round of encryption with the same key. -/
theorem decRound_encRound {ws : List Bytes} {s : Bytes} {r : Nat} (hws : 4 * r + 4 ≤ ws.length)
    (hw : ∀ w ∈ ws, w.length = 4) :
    decRound ws (shiftRows (subBytes (encRound ws s r))) r = shiftRows (subBytes s) := by
  have hmixed : (mixColumns (shiftRows (subBytes s))).length = 16 := mixColumns_length (by simp)
  have henc : (encRound ws s r).length = 16 := encRound_length hws hw
  rw [decRound, invShiftRows_shiftRows (by simpa using henc), invSubBytes_subBytes, encRound,
    addRoundKey_addRoundKey (by rw [hmixed, roundKey_length hws hw]), invMixColumns_mixColumns (by simp)]

theorem decRounds_encRounds {ws : List Bytes} {rs : List Nat} (s : Bytes) (hws : ∀ r ∈ rs, 4 * r + 4 ≤ ws.length)
    (hw : ∀ w ∈ ws, w.length = 4) :
    rs.reverse.foldl (decRound ws) (shiftRows (subBytes (rs.foldl (encRound ws) s))) = shiftRows (subBytes s) := by
  induction rs generalizing s with
  | nil => rfl
  | cons r rs ih =>
    obtain ⟨hr, hrs⟩ := List.forall_mem_cons.mp hws
    rw [List.reverse_cons, List.foldl_append, List.foldl_cons, List.foldl_cons, List.foldl_nil, ih _ hrs, decRound_encRound hr hw]

/-- AesDec undoes AesEnc (spec/48 rule R221). -/
theorem aesDec_aesEnc {k x : Bytes} (hk : k.length = 16) (hx : x.length = 16) : aesDec k (aesEnc k x) = x := by
  obtain ⟨hn, hw⟩ := keyWords_sizes hk
  have hkey : ∀ r ≤ 10, (roundKey (keyWords k) r).length = 16 := fun r hr => roundKey_length (by omega) hw
  have hrounds : ∀ r ∈ [1, 2, 3, 4, 5, 6, 7, 8, 9], 4 * r + 4 ≤ (keyWords k).length := by rw [hn]; decide
  have hwhitened : (addRoundKey x (roundKey (keyWords k) 0)).length = 16 := by simp [addRoundKey, hx, hkey]
  have hundone := decRounds_encRounds (addRoundKey x (roundKey (keyWords k) 0)) hrounds hw
  simp only [List.reverse_cons, List.reverse_nil, List.nil_append, List.cons_append] at hundone
  simp only [aesDec, aesEnc]
  rw [addRoundKey_addRoundKey (by simp [hkey]), hundone, invShiftRows_shiftRows (by simpa using hwhitened), invSubBytes_subBytes,
    addRoundKey_addRoundKey (by simp [hx, hkey])]

end Sys2Proof.Machine
end

section
/-! SUPPORT. The padding, the CBC chain and the comparator, each against its inverse (spec/41_cbc_hmac_datapath.md rules R126, R128, R130;
spec/46_ct_compare.md rules R195, R197), and the round trip of a token through ENC and DEC (spec/44_token_decode.md rule R166). -/

namespace Sys2Proof.Machine

/-! ### PKCS#7 -/

theorem slice_append_right {a b : Bytes} {i j : Nat} (hi : i = a.length) (hj : j = a.length + b.length) :
    slice (a ++ b) i j = b := by
  simpa using slice_append_middle a b [] hi (hi ▸ hj)

theorem pkcs7Unpad_append_rep {p : Bytes} {k : Nat} (hmin : 1 ≤ k) (hmax : k ≤ 16) :
    pkcs7Unpad (p ++ rep (BitVec.ofNat 8 k) k) = some p := by
  have hlen : (p ++ rep (BitVec.ofNat 8 k) k).length = p.length + k := by simp
  have hlast : (p ++ rep (BitVec.ofNat 8 k) k).getD (p.length + k - 1) 0 = BitVec.ofNat 8 k := by
    rw [List.getD_append_right _ _ _ _ (by omega), rep, List.getD_replicate _ (by omega)]
  have hcount : (BitVec.ofNat 8 k).toNat = k := by
    rw [BitVec.toNat_ofNat]
    omega
  have hpadding : slice (p ++ rep (BitVec.ofNat 8 k) k) (p.length + k - k) (p.length + k) = rep (BitVec.ofNat 8 k) k :=
    slice_append_right (by omega) (by simp)
  have hpadded : (rep (BitVec.ofNat 8 k) k).any (fun b => b != BitVec.ofNat 8 k) = false := by simp [rep]
  simp only [pkcs7Unpad, hlen, hlast, hcount, hpadding, hpadded]
  rw [if_neg (by omega), if_neg Bool.false_ne_true, slice_zero, Nat.add_sub_cancel, List.take_left]

/-- Unpadding takes off what padding put on (spec/41 rule R126). -/
theorem pkcs7Unpad_pkcs7Pad (p : Bytes) : pkcs7Unpad (pkcs7Pad p) = some p :=
  pkcs7Unpad_append_rep (by omega) (by omega)

/-! ### CBC -/

theorem blocks16_append {b x : Bytes} (hb : b.length = 16) : blocks16 (b ++ x) = b :: blocks16 x := by
  have hcount : (b ++ x).length / 16 = x.length / 16 + 1 := by
    rw [List.length_append, hb]
    omega
  have hfirst : slice (b ++ x) (16 * 0) (16 * 0 + 16) = b := by simp [slice, ← hb]
  have hnext : ∀ i, slice (b ++ x) (16 * (i + 1)) (16 * (i + 1) + 16) = slice x (16 * i) (16 * i + 16) := by
    intro i
    have hskip : 16 * (i + 1) = b.length + 16 * i := by omega
    rw [slice, slice, hskip, List.drop_length_add_append]
    congr 1
    omega
  rw [blocks16, hcount, List.range_succ_eq_map, List.map_cons, List.map_map, hfirst, blocks16]
  exact congrArg (b :: ·) (List.map_congr_left fun i _ => hnext i)

theorem blocks16_flatten {bs : List Bytes} (h : ∀ b ∈ bs, b.length = 16) : blocks16 bs.flatten = bs := by
  induction bs with
  | nil => rfl
  | cons b bs ih =>
    obtain ⟨hb, hbs⟩ := List.forall_mem_cons.mp h
    rw [List.flatten_cons, blocks16_append hb, ih hbs]

/-- A string of whole blocks is its blocks put together, by induction on their number. -/
theorem flatten_blocks16 {x : Bytes} {n : Nat} (h : x.length = 16 * n) : (blocks16 x).flatten = x := by
  induction n generalizing x with
  | zero => simp [List.length_eq_zero_iff.mp h, blocks16]
  | succ n ih =>
    have hrest : (x.drop 16).length = 16 * n := by simp; omega
    rw [← List.take_append_drop 16 x, blocks16_append (by simp; omega), List.flatten_cons, ih hrest]

/-- Block by block: AesDec gives back what went into AesEnc, the xor with the chaining block cancels, and both sides chain on the
ciphertext block. -/
theorem cbcDecBlocks_cbcEncBlocks {k c : Bytes} {xs : List Bytes} (hk : k.length = 16) (hc : c.length = 16)
    (hxs : ∀ x ∈ xs, x.length = 16) : cbcDecBlocks k c (cbcEncBlocks k c xs) = xs := by
  induction xs generalizing c with
  | nil => rfl
  | cons x xs ih =>
    obtain ⟨hx, hxs⟩ := List.forall_mem_cons.mp hxs
    have hblock : xorb (aesDec k (aesEnc k (xorb x c))) c = x := by
      rw [aesDec_aesEnc hk (by simp [hx, hc]), xorb_xorb_cancel (hx.trans hc.symm)]
    simp only [cbcEncBlocks, cbcDecBlocks, hblock, ih (aesEnc_length hk _) hxs]

/-- CbcDecrypt undoes CbcEncrypt on whole blocks (spec/41 rule R128). -/
theorem cbcDecrypt_cbcEncrypt {k iv x : Bytes} (hk : k.length = 16) (hiv : iv.length = 16) (hx : x.length % 16 = 0) :
    cbcDecrypt k iv (cbcEncrypt k iv x) = x := by
  obtain ⟨-, hsizes⟩ := cbcEncBlocks_sizes hk iv (blocks16 x)
  have hwhole : x.length = 16 * (x.length / 16) := by omega
  rw [cbcDecrypt, cbcEncrypt, blocks16_flatten hsizes, cbcDecBlocks_cbcEncBlocks hk hiv (fun _ => blocks16_sizes),
    flatten_blocks16 hwhole]

/-- The payload comes back (spec/41 rule R130). -/
theorem decryptPayload_encryptPayload {k iv : Bytes} (hk : k.length = 16) (hiv : iv.length = 16) (p : Bytes) :
    decryptPayload k iv (encryptPayload k iv p) = some p := by
  rw [decryptPayload, encryptPayload, cbcDecrypt_cbcEncrypt hk hiv (by simp), pkcs7Unpad_pkcs7Pad]

/-! ### The comparator -/

/-- The accumulator stays 0 exactly as long as no pair of bytes differs. -/
theorem accumulate_eq_zero_iff {a b : Bytes} (h : a.length = b.length) (acc : Byte) :
    accumulate acc a b = 0 ↔ acc = 0 ∧ a = b := by
  induction a generalizing b acc with
  | nil =>
    obtain rfl : b = [] := List.length_eq_zero_iff.mp h.symm
    simp [accumulate]
  | cons x a ih =>
    cases b with
    | nil => simp at h
    | cons y b =>
      have hpair : acc ||| (x ^^^ y) = 0 ↔ acc = 0 ∧ x = y :=
        BitVec.or_eq_zero_iff.trans (and_congr_right' BitVec.xor_eq_zero_iff)
      rw [accumulate, ih (by simpa using h), hpair, List.cons.injEq, and_assoc]

/-- As a value CtEq is equality of byte strings (spec/46_ct_compare.md rule R197). -/
theorem ctEq_eq_true_iff {a b : Bytes} : ctEq a b = true ↔ a = b := by
  unfold ctEq
  by_cases h : a.length = b.length
  · rw [if_neg (not_not.mpr h), beq_iff_eq, accumulate_eq_zero_iff h]
    simp
  · rw [if_pos h]
    simp [mt (congrArg List.length) h]

/-! ### ENC made a token -/

/-- No error that ENC raises is called `ok`. -/
theorem run_encPhases_error_ne_ok {ivsrc tssrc : Bool} {s : State} {e : Raise}
    (hrun : runPhases (encPhases ivsrc tssrc s) Flight.start = .error e) : e.err ≠ .ok := by
  rw [run_encPhases] at hrun
  split_ifs at hrun <;> cases hrun <;> exact ErrCode.noConfusion

/-- An ENC that raises nothing had room for the token's text and ends with `encFlight`. -/
theorem run_encPhases_ok {ivsrc tssrc : Bool} {s : State} {f : Flight}
    (hrun : runPhases (encPhases ivsrc tssrc s) Flight.start = .ok f) :
    b64Len (tokenLen s.ilen.toNat) ≤ s.bufMax ∧ f = encFlight ivsrc tssrc s := by
  rw [run_encPhases] at hrun
  split_ifs at hrun with _ _ hroom <;> cases hrun
  all_goals exact ⟨Nat.not_lt.mp hroom, rfl⟩

/-- What an ENC that ended without an error leaves: the text of its token as output, and its timestamp. -/
theorem exec_enc_left_token {ivsrc tssrc : Bool} {s t : State} (hparam : s.ParamOk) (hw : s.obuf.wf)
    (hexec : exec (.enc ivsrc tssrc) s = .next t) (herr : t.err = .ok) :
    OutputIs s t (encFlight ivsrc tssrc s).out ∧ (encFlight ivsrc tssrc s).out.length ≤ s.bufMax
      ∧ t.tsOut = (encFlight ivsrc tssrc s).ts := by
  obtain rfl : s.takeDraws.complete (encPhases ivsrc tssrc s) encCommit = t := Host.Outcome.next.inj hexec
  rcases complete_cases s.takeDraws (encPhases ivsrc tssrc s) encCommit with ⟨e, hrun, hend⟩ | ⟨f, hrun, hend⟩
  · rw [hend] at herr
    exact absurd herr (run_encPhases_error_ne_ok hrun)
  · obtain ⟨hroom, rfl⟩ := run_encPhases_ok hrun
    obtain ⟨-, hmax⟩ := hparam
    rw [← encFlight_out_length ivsrc tssrc] at hroom
    rw [hend]
    have hout := putOutput_outputIs (s := s) hw (show (encFlight ivsrc tssrc s).out.length < 2 ^ 16 by omega) []
    exact ⟨⟨hout.olen, hout.bytes, hout.rest⟩, hroom, rfl⟩

/-! ### DEC opens it -/

/-- The fields of ENC's token are the values it was made from. -/
theorem splitToken_encFlight_tok (ivsrc tssrc : Bool) (s : State) :
    let f := encFlight ivsrc tssrc s
    splitToken f.tok =
      { ver := tokenVersion, ts := f.ts.toList, iv := f.iv.toList, ct := f.ct, tag := f.tag, body := f.body } :=
  splitToken_frameToken_tokenBody (by simp) (by simp) (by simp)

theorem lengthOk_encFlight_tok (ivsrc tssrc : Bool) (s : State) :
    lengthOk (encFlight ivsrc tssrc s).tok.length = true := by
  have hct : (encFlight ivsrc tssrc s).ct.length = 16 * (s.input.length / 16 + 1) := encryptPayload_length (by simp) _ _
  have htok : (encFlight ivsrc tssrc s).tok.length = 57 + (encFlight ivsrc tssrc s).ct.length :=
    frameToken_tokenBody_length (by simp) (by simp) (by simp)
  rw [htok, hct, lengthOk_iff_exists_blocks]
  exact ⟨_, by omega, rfl⟩

/-- Under the keys of the ENC in state `s`, what DEC takes from the token is what ENC put in: the timestamp and an authentic tag. -/
theorem decFlight_encFlight_tok (ivsrc tssrc : Bool) {s u : State} (hsk : u.sk = s.sk) (p : Bytes) :
    (decFlight u (encFlight ivsrc tssrc s).tok p).ts = (encFlight ivsrc tssrc s).ts
      ∧ (decFlight u (encFlight ivsrc tssrc s).tok p).ok = true := by
  simp only [decFlight, splitToken_encFlight_tok, hsk]
  exact ⟨toVec_toList _, ctEq_eq_true_iff.mpr rfl⟩

/-- Settles O29: the text decodes to ENC's token (`b64UrlDecode_b64UrlEncode`), its fields are the ones ENC put in
(`splitToken_encFlight_tok`), and the ciphertext decrypts under the same key (`decryptPayload_encryptPayload`), so DEC takes the path
of `exec_dec_of_opened`. -/
theorem decOpensWhatEncMade : Obligations.DecOpensWhatEncMade := by
  intro ivsrc tssrc s t u hparam hw _ _ hexec herr hbuf huw hsk hek hkey huerr hilen hinput haes hmac
  obtain ⟨hout, hfits, hts⟩ := exec_enc_left_token hparam hw hexec herr
  have htext : u.input = b64UrlEncode (encFlight ivsrc tssrc s).tok := by rw [hinput, hout.olen, hout.bytes]; rfl
  have hdecode : b64UrlDecode u.input = some (encFlight ivsrc tssrc s).tok := by rw [htext, b64UrlDecode_b64UrlEncode]
  have hlen : u.ilen.toNat ≤ u.bufMax := by rw [hilen, hout.olen, hbuf]; exact hfits
  have hplain : decryptPayload u.ek.toList (toVec 16 (splitToken (encFlight ivsrc tssrc s).tok).iv).toList
      (splitToken (encFlight ivsrc tssrc s).tok).ct = some s.input := by
    rw [splitToken_encFlight_tok, toVec_toList, hek]
    exact decryptPayload_encryptPayload (by simp) (by simp) s.input
  have hversion : (splitToken (encFlight ivsrc tssrc s).tok).ver = tokenVersion := by rw [splitToken_encFlight_tok]
  have hrun := exec_dec_of_opened hlen hkey hdecode (lengthOk_encFlight_tok ivsrc tssrc s) hversion haes hmac hplain
  have hshort : s.input.length < 2 ^ 16 := by simpa [State.input] using s.ilen.isLt
  have hplaintext := putOutput_outputIs (s := u) huw hshort []
  obtain ⟨hstamp, hok⟩ := decFlight_encFlight_tok ivsrc tssrc hsk s.input
  exact ⟨_, hrun, huerr, ⟨hplaintext.olen, hplaintext.bytes, hplaintext.rest⟩, hok, hstamp.trans hts.symm⟩

end Sys2Proof.Machine
end

section
/-! SUPPORT. The transcoder's round trip in one direction and its failure in the other (spec/45_base64url.md rule R185). -/

namespace Sys2Proof.Machine

/-- The text `AB` decodes to one zero byte: the decoder drops the four spare bits `0001` unchecked (spec/45_base64url.md rule
R182). -/
theorem b64UrlDecode_nonzero_spare_bits : b64UrlDecode [0x41, 0x42] = some [0x00] := by decide

/-- The encoder fills the spare bits with zeros, so it writes one zero byte as `AA`. -/
theorem b64UrlEncode_zero_byte : b64UrlEncode [0x00] = [0x41, 0x41] := by decide

/-- Settles O41: the round trip is `b64UrlDecode_b64UrlEncode`; the converse fails at a text whose spare bits are not zero. -/
theorem base64DecodeInvertsEncode : Obligations.Base64DecodeInvertsEncode := by
  refine ⟨b64UrlDecode_b64UrlEncode, [0x41, 0x42], [0x00], b64UrlDecode_nonzero_spare_bits, ?_⟩
  rw [b64UrlEncode_zero_byte]
  decide

end Sys2Proof.Machine
end

section
/-! SUPPORT. AES-128 encryption undoes decryption (spec/48_primitives_aes_sha256.md rule R221), by counting: encryption under one key
maps the 16-byte blocks to themselves and decryption undoes it, so no two blocks share a ciphertext; there are finitely many
blocks, so each of them is a ciphertext. -/

namespace Sys2Proof.Machine

/-- On the byte strings of one length, of which there are finitely many, what undoes a function is also undone by it. -/
theorem rightInvOn_of_leftInvOn_length {n : Nat} {f g : Bytes → Bytes} (hlength : ∀ x, x.length = n → (f x).length = n)
    (hleft : ∀ x, x.length = n → g (f x) = x) {y : Bytes} (hy : y.length = n) : f (g y) = y := by
  have hfinite : {x : Bytes | x.length = n}.Finite := List.finite_length_eq Byte n
  have hinjective : Set.InjOn f {x | x.length = n} := Set.LeftInvOn.injOn hleft
  have hsurjective := ((hfinite.injOn_iff_bijOn_of_mapsTo hlength).mp hinjective).surjOn
  obtain ⟨x, hx, rfl⟩ := hsurjective hy
  rw [hleft x hx]

/-- AesEnc undoes AesDec (spec/48 rule R221). -/
theorem aesEnc_aesDec {k y : Bytes} (hk : k.length = 16) (hy : y.length = 16) : aesEnc k (aesDec k y) = y :=
  rightInvOn_of_leftInvOn_length (fun x _ => aesEnc_length hk x) (fun _ hx => aesDec_aesEnc hk hx) hy

/-- Settles O39: one direction round by round (`aesDec_aesEnc`), the other from it by counting (`aesEnc_aesDec`). -/
theorem aesDecryptionInvertsEncryption : Obligations.AesDecryptionInvertsEncryption :=
  fun _ _ hk hx => ⟨aesDec_aesEnc hk hx, aesEnc_aesDec hk hx⟩

end Sys2Proof.Machine
end

section
/-! SUPPORT. Accept as the host sees it (spec/60_exceptions.md rule R247): a write to CMD while idle, and the write that is dropped
while a command is in flight (spec/20_memory.md rule R71). -/

namespace Sys2Proof.Machine

theorem State.hostWrite_of_busy {s : State} (h : s.busy = true) (a : BusAddr) (b : Byte) : s.hostWrite a b = s := by
  simp [State.hostWrite, h]

/-- Address 0 is CMD (spec/20_memory.md rule R66), where a write is the accept step. -/
theorem State.hostWrite_cmd_of_idle {s : State} (hb : s.busy = false) (hr : s.rst = false) (c : Byte) :
    s.hostWrite 0x00000 c = s.accept c := by
  have hcmd : locate s.bufMax 0x00000 = .cmd := locate_ofNat_control s.bufMax (off := 0) (by decide)
  rw [State.hostWrite, hcmd]
  simp [hb, hr, State.writeLoc]

/-- Settles O7: while idle the write is `State.accept`, whose phase is read off the decoded command; while busy it is dropped. -/
theorem cmdWriteAccepts : Obligations.CmdWriteAccepts := by
  intro s c rest harrivals hr
  have hslot : s.afterSlot = { s with arrivals := rest } := by simp [State.afterSlot, harrivals]
  have hstep : step s = .next (s.afterSlot.hostWrite 0x00000 c) := by rw [step_of_write harrivals, served_of_released hr]
  refine ⟨fun hidle => ?accepted, fun hbusy => ?dropped⟩
  case accepted =>
    have haccept : s.afterSlot.hostWrite 0x00000 c = s.afterSlot.accept c :=
      State.hostWrite_cmd_of_idle (s := s.afterSlot) hidle hr c
    refine ⟨s.afterSlot.accept c, hstep.trans (congrArg Host.Outcome.next haccept), ?state, ?obuf, ?wf, ?tsOut⟩
    case state =>
      unfold State.accept firstPhase
      rw [hslot]
      cases decode c with
      | error e => rfl
      | ok i => cases i <;> rfl
    case obuf => simp [Memory.unlisted]
    case wf => exact Memory.cleared_wf
    case tsOut => simp
  case dropped =>
    have hdropped : s.afterSlot.hostWrite 0x00000 c = s.afterSlot :=
      State.hostWrite_of_busy (s := s.afterSlot) hbusy 0x00000 c
    rw [hstep, hdropped, hslot]

end Sys2Proof.Machine
end

section
/-! SUPPORT. Errors are precise (spec/60_exceptions.md rule R252): every command but SRST ends in `State.raise`, which touches no
architectural result, or in a success, which leaves ERR alone. -/

namespace Sys2Proof.Machine

/-- How a complete step ends whose commit leaves a success. -/
theorem complete_raises_or_succeeds {s : State} (phases : List PhaseWork) {commit : Flight → State → State}
    (hcommit : ∀ f, EndsInSuccess s ((commit f s).finish f.asked)) :
    (∃ e, s.complete phases commit = s.raise e) ∨ EndsInSuccess s (s.complete phases commit) := by
  rcases complete_cases s phases commit with ⟨e, _, hend⟩ | ⟨f, _, hend⟩
  · exact .inl ⟨e, hend⟩
  · exact .inr (hend ▸ hcommit f)

/-- Every command but SRST is one complete step, with phases and a commit of its own; ENC and DEC take their draws first. -/
theorem exec_eq_complete {i : Instr} (hi : i ≠ .srst) (s : State) :
    ∃ u phases commit, (u = s ∨ u = s.takeDraws) ∧ (∀ f, EndsInSuccess u ((commit f u).finish f.asked))
      ∧ exec i s = .next (u.complete phases commit) := by
  cases i with
  | keyldRaw => exact ⟨s, keyldRawPhases s, keyCommit, .inl rfl, fun f => keyCommit_endsInSuccess f s, rfl⟩
  | keyldB64 => exact ⟨s, keyldB64Phases s, keyCommit, .inl rfl, fun f => keyCommit_endsInSuccess f s, rfl⟩
  | enc ivsrc tssrc =>
    exact ⟨s.takeDraws, encPhases ivsrc tssrc s, encCommit, .inr rfl, fun f => encCommit_endsInSuccess f s.takeDraws, rfl⟩
  | dec => exact ⟨s.takeDraws, decPhases s, decCommit, .inr rfl, fun f => decCommit_endsInSuccess f s.takeDraws, rfl⟩
  | b64e => exact ⟨s, b64ePhases s, transcodeCommit, .inl rfl, fun f => transcodeCommit_endsInSuccess f s, rfl⟩
  | b64d => exact ⟨s, b64dPhases s, transcodeCommit, .inl rfl, fun f => transcodeCommit_endsInSuccess f s, rfl⟩
  | cteq => exact ⟨s, cteqPhases s, cteqCommit, .inl rfl, fun f => cteqCommit_endsInSuccess f s, rfl⟩
  | srst => exact absurd rfl hi

/-- A command that turns a clear ERR into an error ended by `State.raise`: a success would have left ERR clear. -/
theorem exec_raises_of_err_ne_ok {i : Instr} {s t : State} (hi : i ≠ .srst) (hclear : s.err = .ok) (hexec : exec i s = .next t)
    (herr : t.err ≠ .ok) : ∃ e, t = s.raise e ∨ t = s.takeDraws.raise e := by
  obtain ⟨u, phases, commit, hu, hcommit, heq⟩ := exec_eq_complete hi s
  obtain rfl : u.complete phases commit = t := Host.Outcome.next.inj (heq.symm.trans hexec)
  have hu_err : u.err = .ok := by rcases hu with rfl | rfl <;> exact hclear
  rcases complete_raises_or_succeeds phases hcommit with ⟨e, hraise⟩ | hsuccess
  · exact ⟨e, by rcases hu with rfl | rfl <;> simp [hraise]⟩
  · exact absurd (hsuccess.err.trans hu_err) herr

/-- Settles O46: the end is `State.raise` (`exec_raises_of_err_ne_ok`), which writes ERR, ERRINFO, DONE, BUSY, PHASE and the fields
left open alone; accept overwrites those five, so after it only the open fields can differ. -/
theorem errorsArePrecise : Obligations.ErrorsArePrecise := by
  intro i s t hi hclear hexec herr
  obtain ⟨e, rfl | rfl⟩ := exec_raises_of_err_ne_ok hi hclear hexec herr <;> exact ⟨rfl, fun _ => rfl⟩

end Sys2Proof.Machine
end

section
/-! SUPPORT. How every command ends, said once: its phases, its commit and the draws it takes, and the two ends of its complete step
(spec/60_exceptions.md rules R249 to R251). -/

namespace Sys2Proof.Machine

/-! ### A command is its phases and its commit -/

/-- The phases of a command with their work. SRST has no phase that computes: its complete step is the reset itself. -/
def workOf : Instr → State → List PhaseWork
  | .keyldRaw => keyldRawPhases
  | .keyldB64 => keyldB64Phases
  | .enc ivsrc tssrc => encPhases ivsrc tssrc
  | .dec => decPhases
  | .b64e => b64ePhases
  | .b64d => b64dPhases
  | .cteq => cteqPhases
  | .srst => fun _ => []

/-- What a command writes on success. -/
def commitOf : Instr → Flight → State → State
  | .keyldRaw | .keyldB64 => keyCommit
  | .enc _ _ => encCommit
  | .dec => decCommit
  | .b64e | .b64d => transcodeCommit
  | .cteq => cteqCommit
  | .srst => fun _ u => u

/-- The state a command writes to: ENC and DEC have taken their draws. -/
def State.drawn (s : State) : Instr → State
  | .enc _ _ | .dec => s.takeDraws
  | _ => s

/-- Every command but SRST is the complete step of its phases and its commit (`workOf`, `commitOf` and `State.drawn` are read off
`exec`). -/
theorem exec_eq_complete_workOf {i : Instr} (hi : i ≠ .srst) (s : State) :
    exec i s = .next ((s.drawn i).complete (workOf i s) (commitOf i)) := by
  cases i with
  | srst => exact absurd rfl hi
  | _ => rfl

/-- The two ends of a command but SRST: the error its phases raised is recorded, or its writes are made. -/
theorem exec_ends {i : Instr} (hi : i ≠ .srst) (s : State) :
    (∃ e, runPhases (workOf i s) Flight.start = .error e ∧ exec i s = .next ((s.drawn i).raise e))
      ∨ ∃ f, runPhases (workOf i s) Flight.start = .ok f ∧ exec i s = .next ((commitOf i f (s.drawn i)).finish f.asked) := by
  rw [exec_eq_complete_workOf hi]
  rcases complete_cases (s.drawn i) (workOf i s) (commitOf i) with ⟨e, hrun, hend⟩ | ⟨f, hrun, hend⟩
  · exact .inl ⟨e, hrun, congrArg _ hend⟩
  · exact .inr ⟨f, hrun, congrArg _ hend⟩

/-- An illegal byte's complete step (spec/47_control.md rule R206). -/
theorem execIllegal_eq (s : State) : execIllegal s = .next (s.raise ⟨.illegalCommand, 0, []⟩) := rfl

/-! ### The ending that the phases decide -/

/-- What every command but SRST leaves, its phases having given this result: the frame of the error or of the success, and what was
asked of the ports. -/
def EndsWith (s t : State) : Except Raise Flight → Prop
  | .error e => EndsInError s t e.err e.info ∧ t.requests = s.requests ++ e.asked
  | .ok f => EndsInSuccess s t ∧ t.requests = s.requests ++ f.asked

theorem commitOf_endsInSuccess (i : Instr) (f : Flight) (u : State) : EndsInSuccess u ((commitOf i f u).finish f.asked) := by
  cases i with
  | keyldRaw | keyldB64 => exact keyCommit_endsInSuccess f u
  | enc => exact encCommit_endsInSuccess f u
  | dec => exact decCommit_endsInSuccess f u
  | b64e | b64d => exact transcodeCommit_endsInSuccess f u
  | cteq => exact cteqCommit_endsInSuccess f u
  | srst => exact ⟨rfl, rfl, ⟨rfl, rfl, rfl, rfl, rfl⟩, ⟨fun _ => rfl, rfl, rfl, rfl, rfl, rfl, rfl⟩, ⟨rfl, rfl, rfl, rfl⟩⟩

@[simp] theorem commitOf_requests (i : Instr) (f : Flight) (u : State) : (commitOf i f u).requests = u.requests := by
  cases i <;> rfl

@[simp] theorem commitOf_answers (i : Instr) (f : Flight) (u : State) : (commitOf i f u).answers = u.answers := by
  cases i <;> rfl

@[simp] theorem State.drawn_requests (s : State) (i : Instr) : (s.drawn i).requests = s.requests := by cases i <;> rfl

theorem EndsInError.of_drawn {s t : State} {err : ErrCode} {info : Byte} {i : Instr} (h : EndsInError (s.drawn i) t err info) :
    EndsInError s t err info := by
  cases i with
  | enc | dec => exact h.of_takeDraws
  | _ => exact h

theorem EndsInSuccess.of_drawn {s t : State} {i : Instr} (h : EndsInSuccess (s.drawn i) t) : EndsInSuccess s t := by
  cases i with
  | enc | dec => exact h.of_takeDraws
  | _ => exact h

/-- Every command but SRST ends as its phases decide, and no end gives back or takes a further record of draws. -/
theorem exec_endsWith {i : Instr} (hi : i ≠ .srst) (s : State) :
    ∃ t, exec i s = .next t ∧ t.answers = (s.drawn i).answers ∧ EndsWith s t (runPhases (workOf i s) Flight.start) := by
  rcases exec_ends hi s with ⟨e, hrun, hexec⟩ | ⟨f, hrun, hexec⟩
  · rw [hrun]
    exact ⟨_, hexec, rfl, (raise_endsInError (s.drawn i) e).of_drawn, by simp⟩
  · rw [hrun]
    exact ⟨_, hexec, by simp, (commitOf_endsInSuccess i f (s.drawn i)).of_drawn, by simp⟩

theorem EndsWith.sameInputs {s t : State} {r : Except Raise Flight} (h : EndsWith s t r) : SameInputs s t := by
  cases r with
  | error e => exact h.1.inputs
  | ok f => exact h.1.inputs

theorem EndsWith.completesOnce {s t : State} {r : Except Raise Flight} (h : EndsWith s t r) : CompletesOnce s t := by
  cases r with
  | error e => exact h.1.bookkeeping
  | ok f => exact h.1.bookkeeping

theorem EndsWith.of_exec {i : Instr} {s t : State} (hi : i ≠ .srst) (hexec : exec i s = .next t) :
    EndsWith s t (runPhases (workOf i s) Flight.start) := by
  obtain ⟨u, hu, -, hend⟩ := exec_endsWith hi s
  obtain rfl : u = t := Host.Outcome.next.inj (hu.symm.trans hexec)
  exact hend

/-! ### The errors a command can raise -/

/-- An error the spec knows: it has a code other than 0, a payload comes with CipherError and AuthError only, and always with
AuthError (spec/10_state.md rule R37, spec/60_exceptions.md rule R240). -/
structure Raise.Listed (e : Raise) : Prop where
  notOk : e.err ≠ .ok
  payload : e.info ≠ 0 → e.err = .cipherError ∨ e.err = .authError
  authPayload : e.err = .authError → e.info ≠ 0

theorem Raise.listed_iff (e : Raise) :
    e.Listed ↔ e.err ≠ .ok ∧ (e.info ≠ 0 → e.err = .cipherError ∨ e.err = .authError) ∧ (e.err = .authError → e.info ≠ 0) :=
  ⟨fun ⟨h1, h2, h3⟩ => ⟨h1, h2, h3⟩, fun ⟨h1, h2, h3⟩ => ⟨h1, h2, h3⟩⟩

/-- Whatever a command's phases raise is listed: each failing test names its error, and the only payloads are fault codes that the
test has found not to be 0 (or the 0 of a bad padding). -/
theorem run_workOf_error_listed {i : Instr} {s : State} {e : Raise}
    (hrun : runPhases (workOf i s) Flight.start = .error e) : e.Listed := by
  cases i with
  | keyldRaw =>
    rw [workOf, run_keyldRawPhases] at hrun
    split_ifs at hrun <;> cases hrun <;> simp [Raise.listed_iff]
  | keyldB64 =>
    rw [workOf, run_keyldB64Phases] at hrun
    cases htext : b64UrlDecode s.input <;> simp only [htext] at hrun
    all_goals split_ifs at hrun <;> cases hrun <;> simp [Raise.listed_iff]
  | enc =>
    rw [workOf, run_encPhases] at hrun
    split_ifs at hrun <;> cases hrun <;> simp_all [Raise.listed_iff]
  | dec =>
    rw [workOf, run_decPhases] at hrun
    repeat' split at hrun
    all_goals cases hrun
    all_goals simp_all [Raise.listed_iff]
  | b64e =>
    rw [workOf, run_b64ePhases] at hrun
    split_ifs at hrun <;> cases hrun <;> simp [Raise.listed_iff]
  | b64d =>
    rw [workOf, run_b64dPhases] at hrun
    cases htext : b64UrlDecode s.input <;> simp only [htext] at hrun
    all_goals split_ifs at hrun <;> cases hrun <;> simp [Raise.listed_iff]
  | cteq =>
    rw [workOf, run_cteqPhases] at hrun
    split_ifs at hrun <;> cases hrun <;> simp [Raise.listed_iff]
  | srst => cases hrun

/-! ### When a command succeeds, and with what -/

theorem run_b64ePhases_ok {s : State} {f : Flight} (hrun : runPhases (b64ePhases s) Flight.start = .ok f) :
    b64Len s.ilen.toNat ≤ s.bufMax ∧ f.out = b64UrlEncode s.input := by
  rw [run_b64ePhases] at hrun
  split_ifs at hrun with _ hroom
  cases hrun
  exact ⟨Nat.not_lt.mp hroom, rfl⟩

theorem run_b64dPhases_ok {s : State} {f : Flight} (hrun : runPhases (b64dPhases s) Flight.start = .ok f) :
    s.ilen.toNat ≤ s.bufMax ∧ b64UrlDecode s.input = some f.out := by
  rw [run_b64dPhases] at hrun
  cases htext : b64UrlDecode s.input <;> simp only [htext] at hrun <;> split_ifs at hrun with hlen
  cases hrun
  exact ⟨Nat.not_lt.mp hlen, rfl⟩

theorem run_encPhases_ok_keyValid {ivsrc tssrc : Bool} {s : State} {f : Flight}
    (hrun : runPhases (encPhases ivsrc tssrc s) Flight.start = .ok f) : s.keyValid = true := by
  rw [run_encPhases] at hrun
  split_ifs at hrun with _ hkey <;> cases hrun
  all_goals simpa using hkey

/-- The conditions under which DEC opens the binary token `tok` to the plaintext `p` (spec/44_token_decode.md rule R165). -/
structure State.Opens (s : State) (tok p : Bytes) : Prop where
  fits : s.ilen.toNat ≤ s.bufMax
  keyValid : s.keyValid = true
  decoded : b64UrlDecode s.input = some tok
  length : lengthOk tok.length = true
  version : (splitToken tok).ver = tokenVersion
  noAesFault : s.draws.aesFault = 0
  noMacFault : s.draws.macFault = 0
  plaintext : decryptPayload s.ek.toList (toVec 16 (splitToken tok).iv).toList (splitToken tok).ct = some p

theorem State.Opens.exec_dec {s : State} {tok p : Bytes} (h : s.Opens tok p) :
    exec .dec s = .next ((decCommit (decFlight s tok p) s.takeDraws).finish (decFlight s tok p).asked) :=
  exec_dec_of_opened h.fits h.keyValid h.decoded h.length h.version h.noAesFault h.noMacFault h.plaintext

/-- A DEC that raises nothing has opened a token. -/
theorem run_decPhases_ok {s : State} {f : Flight} (hrun : runPhases (decPhases s) Flight.start = .ok f) :
    ∃ tok p, s.Opens tok p ∧ f = decFlight s tok p := by
  rw [run_decPhases] at hrun
  cases htok : b64UrlDecode s.input with
  | none =>
    simp only [htok] at hrun
    split_ifs at hrun
  | some tok =>
    cases hplain : decryptPayload s.ek.toList (toVec 16 (splitToken tok).iv).toList (splitToken tok).ct with
    | none =>
      simp only [htok, hplain] at hrun
      split_ifs at hrun
    | some p =>
      simp only [htok, hplain] at hrun
      split_ifs at hrun with hlen hkey hlength hversion haes hmac
      cases hrun
      exact ⟨tok, p, ⟨Nat.not_lt.mp hlen, by simpa using hkey, htok, by simpa using hlength, not_not.mp hversion,
        not_not.mp haes, not_not.mp hmac, hplain⟩, rfl⟩

end Sys2Proof.Machine
end

section
/-! SUPPORT. The invariant of Safety.lean holds at reset and is kept by every step (spec/10_state.md rules R20 to R46): once for each
shared update of the state, then for each command's writes, then for the step. -/

namespace Sys2Proof.Machine

/-! ### The reset state -/

theorem firstPhase_ne_idle (c : Byte) : firstPhase c ≠ .idle := by
  unfold firstPhase
  cases decode c with
  | error e => exact nofun
  | ok i => cases i <;> exact nofun

/-- Whatever the state was, the reset block has the invariant: only BUF_MAX is taken over from it. -/
theorem resetBlock_inv {s : State} (hparam : s.ParamOk) : s.resetBlock.Inv where
  param := hparam
  buffers := ⟨Memory.cleared_wf, Memory.cleared_wf, nofun, nofun, Nat.zero_le _⟩
  sequencer := by simp [State.SequencerOk]
  key := fun _ => ⟨rfl, rfl⟩
  results := by simp [State.ResultsOk, State.OutputsClear]
  flags := by simp [State.FlagsOk]
  held := fun _ => rfl

/-- Settles O43: the state the model starts from is a reset block, and `Config.bufMax` lies in the range of BUF_MAX. -/
theorem invariantHoldsAtReset : Obligations.InvariantHoldsAtReset := by
  have hover : Config.bufMaxOver.val < 65408 := Config.bufMaxOver.isLt
  have hparam : State.reset.ParamOk := by
    show 128 ≤ Config.bufMaxOver.val + 128 ∧ Config.bufMaxOver.val + 128 ≤ 65535
    omega
  exact resetBlock_inv hparam

/-! ### The surroundings -/

theorem State.Inv.held_eq {s : State} (h : s.Inv) : s.held = s := by
  unfold State.held
  split
  case isTrue hrst => exact h.held hrst
  case isFalse => rfl

/-- With a command in flight the reset pin is released: asserted, it would have ended the command. -/
theorem State.Inv.released_of_busy {s : State} (h : s.Inv) (hbusy : s.busy = true) : s.rst = false := by
  by_contra hrst
  have hreset := h.held (by simpa using hrst)
  rw [← hreset] at hbusy
  exact Bool.noConfusion hbusy

/-- What a host's read and the passing of an arrival touch is no part of the invariant. -/
theorem State.Inv.with_host {s : State} (h : s.Inv) (arrivals : List Arrival) (reads : List (BusAddr × Byte)) :
    State.Inv { s with arrivals := arrivals, reads := reads } where
  param := h.param
  buffers := h.buffers
  sequencer := h.sequencer
  key := h.key
  results := h.results
  flags := h.flags
  held := fun hrst => congrArg (fun u : State => { u with arrivals := arrivals, reads := reads }) (h.held hrst)

theorem State.Inv.afterSlot {s : State} (h : s.Inv) : s.afterSlot.Inv := h.with_host s.arrivals.tail s.reads

theorem State.Inv.served_eq {s : State} (h : s.Inv) : s.served = s.afterSlot := by
  rw [State.served, h.held_eq, State.afterSlot]

theorem State.Inv.hostRead {s : State} (h : s.Inv) (a : BusAddr) : (s.hostRead a).Inv :=
  h.with_host s.arrivals (s.reads ++ [(a, s.busByte a)])

theorem State.Inv.setRst {s : State} (h : s.Inv) (level : Bool) : (s.setRst level).Inv := by
  cases level with
  | true => exact resetBlock_inv (s := { s with rst := true }) h.param
  | false =>
    show State.Inv { s with rst := false }
    exact ⟨h.param, h.buffers, h.sequencer, h.key, h.results, h.flags, nofun⟩

theorem State.Inv.takeDraws {s : State} (h : s.Inv) : s.takeDraws.Inv where
  param := h.param
  buffers := h.buffers
  sequencer := h.sequencer
  key := h.key
  results := h.results
  flags := h.flags
  held := fun hrst => congrArg State.takeDraws (h.held hrst)

theorem State.Inv.drawn {s : State} (h : s.Inv) (i : Instr) : (s.drawn i).Inv := by
  cases i with
  | enc | dec => exact h.takeDraws
  | _ => exact h

/-! ### Host writes -/

/-- Accept clears the results and enters the first phase of the command (spec/60_exceptions.md rule R247). -/
theorem State.Inv.accept {s : State} (h : s.Inv) (hrst : s.rst = false) (c : Byte) : (s.accept c).Inv where
  param := h.param
  buffers := by
    obtain ⟨hibuf, -, hibufBound, -, -⟩ := h.buffers
    exact ⟨hibuf, Memory.cleared_wf, hibufBound, nofun, Nat.zero_le _⟩
  sequencer := by simp [State.SequencerOk, firstPhase_ne_idle]
  key := h.key
  results := by simp [State.ResultsOk, State.OutputsClear]
  flags := by simp [State.FlagsOk]
  held := fun hheld => absurd (hrst.symm.trans hheld) Bool.false_ne_true

/-- A write to IBUF keeps it canonical and inside BUF_MAX. -/
theorem State.BuffersOk.write_ibuf {s : State} (h : s.BuffersOk) {i : Nat} (hi : i < s.bufMax) (b : Byte) :
    State.BuffersOk { s with ibuf := s.ibuf.write i b } := by
  obtain ⟨hibuf, hobuf, hibufBound, hobufBound, holen⟩ := h
  exact ⟨Memory.write_wf hibuf i b, hobuf, Memory.write_bounded hibuf hibufBound hi b, hobufBound, holen⟩

/-- A write that is not dropped keeps the invariant wherever it goes: CMD is accept, the input registers are free, IBUF is
`State.BuffersOk.write_ibuf`, and nothing else is written. -/
theorem State.Inv.writeLoc {s : State} (h : s.Inv) (hrst : s.rst = false) (b : Byte) {l : Loc}
    (hl : ∀ i, l = .ibuf i → i < s.bufMax) : (s.writeLoc b l).Inv := by
  have released : ∀ t : State, t.rst = s.rst → t.HeldOk := fun t ht hheld =>
    absurd (hrst.symm.trans (ht.symm.trans hheld)) Bool.false_ne_true
  cases l with
  | cmd => exact h.accept hrst b
  | ibuf i =>
    exact ⟨h.param, h.buffers.write_ibuf (hl i rfl) b, h.sequencer, h.key, h.results, h.flags, released _ rfl⟩
  | ilenH | ilenL | alenH | alenL | ivlen | ts | iv =>
    exact ⟨h.param, h.buffers, h.sequencer, h.key, h.results, h.flags, released _ rfl⟩
  | _ => exact h

theorem State.Inv.hostWrite {s : State} (h : s.Inv) (a : BusAddr) (b : Byte) : (s.hostWrite a b).Inv := by
  unfold State.hostWrite
  split
  case isTrue => exact h
  case isFalse hopen =>
    obtain ⟨-, hrst⟩ : s.busy = false ∧ s.rst = false := by simpa using hopen
    obtain ⟨-, hmax⟩ := h.param
    exact h.writeLoc hrst b fun i hi => ((locate_eq_ibuf hmax).mp hi).1

/-! ### The complete step -/

/-- A command in flight finds every result cleared, as accept left them. -/
theorem State.Inv.cleared_of_busy {s : State} (h : s.Inv) (hbusy : s.busy = true) :
    s.done = false ∧ s.err = .ok ∧ s.errInfo = 0 ∧ s.OutputsClear := by
  obtain ⟨-, -, hdone⟩ := h.sequencer
  obtain ⟨herr, hinfo, hclear, -, -⟩ := h.results
  have hnot := hdone hbusy
  exact ⟨hnot, herr hnot, hinfo (herr hnot), hclear (.inl hnot)⟩

/-- The end in error keeps the invariant when the results were clear and the error is a listed one. -/
theorem State.Inv.raise {s : State} (h : s.Inv) (hbusy : s.busy = true) {e : Raise} (he : e.Listed) : (s.raise e).Inv where
  param := h.param
  buffers := h.buffers
  sequencer := by simp [State.SequencerOk]
  key := h.key
  results := by
    obtain ⟨-, -, -, hclear⟩ := h.cleared_of_busy hbusy
    exact ⟨nofun, fun hok => absurd hok he.notOk, fun _ => hclear, he.payload, he.authPayload⟩
  flags := h.flags
  held := fun hheld => absurd ((h.released_of_busy hbusy).symm.trans hheld) Bool.false_ne_true

/-- What a command's writes have to keep for its success to keep the invariant: PHASE, BUSY and DONE are set by the completion. -/
structure State.CommitOk (u : State) : Prop where
  param : u.ParamOk
  buffers : u.BuffersOk
  key : u.KeyOk
  err : u.err = .ok
  errInfo : u.errInfo = 0
  flags : u.FlagsOk
  released : u.rst = false

theorem State.CommitOk.finish {u : State} (h : u.CommitOk) (asked : List PortRequest) : (u.finish asked).Inv where
  param := h.param
  buffers := h.buffers
  sequencer := by simp [State.SequencerOk]
  key := h.key
  results := by simp [State.ResultsOk, h.err, h.errInfo]
  flags := h.flags
  held := fun hheld => absurd (h.released.symm.trans hheld) Bool.false_ne_true

theorem State.Inv.commitOk {s : State} (h : s.Inv) (hbusy : s.busy = true) : s.CommitOk := by
  obtain ⟨-, herr, hinfo, -⟩ := h.cleared_of_busy hbusy
  exact ⟨h.param, h.buffers, h.key, herr, hinfo, h.flags, h.released_of_busy hbusy⟩

/-- An output that fits, put into the cleared OBUF, is canonical and ends where OLEN says. -/
theorem State.CommitOk.putOutput {s : State} (h : s.CommitOk) (holen : s.olen = 0) {out : Bytes} (hout : out.length ≤ s.bufMax) :
    (s.putOutput out).CommitOk := by
  obtain ⟨hibuf, hobuf, hibufBound, hobufBound, -⟩ := h.buffers
  obtain ⟨-, hmax⟩ := h.param
  have hlen : (BitVec.ofNat 16 out.length).toNat = out.length := by
    rw [BitVec.toNat_ofNat]
    omega
  have hempty : ∀ c ∈ s.obuf.cells, c.1 < out.length := fun c hc => by
    have := hobufBound c hc
    simp [holen] at this
  have hbuffers : (s.putOutput out).BuffersOk := by
    refine ⟨hibuf, Memory.writeN_wf hobuf 0 out, hibufBound, ?_, ?_⟩
    · rw [State.putOutput_olen, hlen]
      exact Memory.writeN_bounded hobuf hempty (by omega)
    · rw [State.putOutput_olen, hlen]
      exact hout
  exact ⟨h.param, hbuffers, h.key, h.err, h.errInfo, h.flags, h.released⟩

/-! ### The writes of each command -/

theorem keyCommit_commitOk {s : State} (h : s.CommitOk) (hclear : s.OutputsClear) (f : Flight) : (keyCommit f s).CommitOk := by
  obtain ⟨-, -, hts, hhmac, heq⟩ := hclear
  exact ⟨h.param, h.buffers, nofun, h.err, h.errInfo, by simp [State.FlagsOk, keyCommit, hts, hhmac, heq], h.released⟩

theorem encCommit_commitOk {s : State} {ivsrc tssrc : Bool} {f : Flight} (h : s.CommitOk) (hclear : s.OutputsClear)
    (hcmd : decode s.cmd = .ok (.enc ivsrc tssrc)) (hkey : s.keyValid = true) (hout : f.out.length ≤ s.bufMax) :
    (encCommit f s).CommitOk := by
  obtain ⟨holen, -, -, hhmac, heq⟩ := hclear
  obtain ⟨hrow, -, -⟩ := decode_eq_ok_enc_iff.mp hcmd
  obtain ⟨hparam, hbuffers, hkeyOk, herr, hinfo, -, hrst⟩ := h.putOutput holen hout
  exact ⟨hparam, hbuffers, hkeyOk, herr, hinfo, ⟨by simp [encCommit, hhmac], by simp [encCommit, heq], fun _ => ⟨.inr hrow, hkey⟩⟩, hrst⟩

theorem decCommit_commitOk {s : State} {f : Flight} (h : s.CommitOk) (hclear : s.OutputsClear)
    (hcmd : decode s.cmd = .ok .dec) (hkey : s.keyValid = true) (hout : f.out.length ≤ s.bufMax) : (decCommit f s).CommitOk := by
  obtain ⟨holen, -, -, -, heq⟩ := hclear
  obtain ⟨hparam, hbuffers, hkeyOk, herr, hinfo, -, hrst⟩ := h.putOutput holen hout
  exact ⟨hparam, hbuffers, hkeyOk, herr, hinfo, by simp [State.FlagsOk, decCommit, heq, hcmd, hkey], hrst⟩

theorem cteqCommit_commitOk {s : State} (h : s.CommitOk) (hclear : s.OutputsClear) (hcmd : decode s.cmd = .ok .cteq) (f : Flight) :
    (cteqCommit f s).CommitOk := by
  obtain ⟨-, -, hts, hhmac, -⟩ := hclear
  exact ⟨h.param, h.buffers, h.key, h.err, h.errInfo, by simp [State.FlagsOk, cteqCommit, hts, hhmac, hcmd], h.released⟩

/-- Every success keeps what it must: the output fits, and each flag is set by its own command. -/
theorem State.Inv.commitOf {i : Instr} {s : State} {f : Flight} (h : s.Inv) (hbusy : s.busy = true) (hcmd : decode s.cmd = .ok i)
    (hrun : runPhases (workOf i s) Flight.start = .ok f) : (commitOf i f (s.drawn i)).CommitOk := by
  obtain ⟨-, -, -, hclear⟩ := h.cleared_of_busy hbusy
  obtain ⟨holen, -, -, -, -⟩ := id hclear
  have hok : s.CommitOk := h.commitOk hbusy
  have hdrawn : s.takeDraws.CommitOk := h.takeDraws.commitOk hbusy
  cases i with
  | keyldRaw | keyldB64 => exact keyCommit_commitOk hok hclear f
  | enc ivsrc tssrc =>
    have hkey : s.keyValid = true := run_encPhases_ok_keyValid hrun
    obtain ⟨hroom, rfl⟩ := run_encPhases_ok hrun
    rw [← encFlight_out_length ivsrc tssrc] at hroom
    exact encCommit_commitOk hdrawn hclear hcmd hkey hroom
  | dec =>
    obtain ⟨tok, p, hopens, rfl⟩ := run_decPhases_ok hrun
    have hshort : p.length ≤ s.ilen.toNat := decrypted_length_le hopens.decoded hopens.plaintext
    exact decCommit_commitOk hdrawn hclear hcmd hopens.keyValid (hshort.trans hopens.fits)
  | b64e =>
    obtain ⟨hroom, hout⟩ := run_b64ePhases_ok hrun
    exact hok.putOutput holen (by rw [hout]; simpa [State.input] using hroom)
  | b64d =>
    obtain ⟨hfits, hdecode⟩ := run_b64dPhases_ok hrun
    have hshort := b64UrlDecode_length hdecode
    have hinput : s.input.length = s.ilen.toNat := by simp [State.input]
    exact hok.putOutput holen (by omega)
  | cteq => exact cteqCommit_commitOk hok hclear hcmd f
  | srst => exact hok

theorem State.Inv.exec {i : Instr} {s t : State} (h : s.Inv) (hbusy : s.busy = true) (hcmd : decode s.cmd = .ok i)
    (hexec : exec i s = .next t) : t.Inv := by
  by_cases hi : i = .srst
  · subst hi
    obtain rfl : _ = t := Host.Outcome.next.inj ((exec_srst s).symm.trans hexec)
    exact resetBlock_inv (s := { s with completed := s.completed + 1 }) h.param
  rcases exec_ends hi s with ⟨e, hrun, hend⟩ | ⟨f, hrun, hend⟩
  · obtain rfl : _ = t := Host.Outcome.next.inj (hend.symm.trans hexec)
    have hdrawn : (s.drawn i).busy = true := by cases i <;> exact hbusy
    exact (h.drawn i).raise hdrawn (run_workOf_error_listed hrun)
  · obtain rfl : _ = t := Host.Outcome.next.inj (hend.symm.trans hexec)
    exact (h.commitOf hbusy hcmd hrun).finish f.asked

theorem State.Inv.execIllegal {s t : State} (h : s.Inv) (hbusy : s.busy = true) (hexec : execIllegal s = .next t) : t.Inv := by
  obtain rfl : _ = t := Host.Outcome.next.inj ((execIllegal_eq s).symm.trans hexec)
  exact h.raise hbusy (by simp [Raise.listed_iff])

/-- Settles O44: a step serves a read, a write or a level of the pin, leaves the block as it is, or is the complete step of the command
in flight; each of these keeps the invariant. -/
theorem everyStepKeepsTheInvariant : Obligations.EveryStepKeepsTheInvariant := by
  intro s t hinv hstep
  have hserved : s.served.Inv := by
    rw [hinv.served_eq]
    exact hinv.afterSlot
  rcases step_cases hstep with ⟨a, rest, -, rfl⟩ | ⟨a, b, rest, -, rfl⟩ | ⟨level, rest, -, rfl⟩ | ⟨-, hmove⟩
  · exact hserved.hostRead a
  · exact hserved.hostWrite a b
  · exact hserved.setRst level
  · rcases hmove with ⟨-, rfl⟩ | ⟨-, hbusy, i, hcmd, hexec⟩ | ⟨-, hbusy, e, -, hexec⟩
    · exact hserved
    · exact hinv.afterSlot.exec hbusy hcmd hexec
    · exact hinv.afterSlot.execIllegal hbusy hexec

/-! ### What the invariant says of OBUF -/

/-- Settles O50: past OLEN the canonical list names no byte. -/
theorem outputBufferIsZeroPastItsLength : Obligations.OutputBufferIsZeroPastItsLength := by
  intro s hinv i hi
  obtain ⟨-, -, -, hbound, -⟩ := hinv.buffers
  exact Memory.read_of_bounded hbound hi

end Sys2Proof.Machine
end

section
/-! SUPPORT. The first failing test of a command is its error (spec/60_exceptions.md rule R251), command by command: what the run of its
phases gives is turned into the frame of the ending by `exec_endsWith`. -/

namespace Sys2Proof.Machine

@[simp] theorem State.input_length (s : State) : s.input.length = s.ilen.toNat := by simp [State.input]

/-! ### Commands that ask nothing of a port -/

/-- A command that takes no draws and asked nothing leaves the ports as they were. -/
theorem portsUntouched_of_nothing_asked {s t : State} (hanswers : t.answers = s.answers) (hasked : t.requests = s.requests ++ []) :
    PortsUntouched s t :=
  ⟨by simpa using hasked, hanswers⟩

/-- Settles O17: the tests stand in `run_keyldRawPhases` in their order, and none of them asks a port. -/
theorem keyldRawErrorsInOrder : Obligations.KeyldRawErrorsInOrder := by
  intro s
  obtain ⟨t, hexec, hanswers, hend⟩ := exec_endsWith (i := .keyldRaw) nofun s
  rw [workOf, run_keyldRawPhases, State.input_length] at hend
  refine ⟨t, hexec, ?_⟩
  split_ifs at hend ⊢
  all_goals exact ⟨portsUntouched_of_nothing_asked hanswers hend.2, hend.1⟩

/-- Settles O19: as for the raw form, with the decoder's failure between the lock and the length (`run_keyldB64Phases`). -/
theorem keyldB64ErrorsInOrder : Obligations.KeyldB64ErrorsInOrder := by
  intro s
  obtain ⟨t, hexec, hanswers, hend⟩ := exec_endsWith (i := .keyldB64) nofun s
  rw [workOf, run_keyldB64Phases] at hend
  refine ⟨t, hexec, ?_⟩
  cases htext : b64UrlDecode s.input <;> simp only [htext] at hend ⊢ <;> split_ifs at hend ⊢
  all_goals exact ⟨portsUntouched_of_nothing_asked hanswers hend.2, hend.1⟩

theorem b64e_errorsInOrder (s : State) :
    ∃ t, exec .b64e s = .next t ∧ PortsUntouched s t
      ∧ if s.bufMax < s.ilen.toNat then EndsInError s t .badLength 0x00
        else if s.bufMax < b64Len s.ilen.toNat then EndsInError s t .overflow 0x00
        else EndsInSuccess s t := by
  obtain ⟨t, hexec, hanswers, hend⟩ := exec_endsWith (i := .b64e) nofun s
  rw [workOf, run_b64ePhases] at hend
  refine ⟨t, hexec, ?_⟩
  split_ifs at hend ⊢
  all_goals exact ⟨portsUntouched_of_nothing_asked hanswers hend.2, hend.1⟩

theorem b64d_errorsInOrder (s : State) :
    ∃ t, exec .b64d s = .next t ∧ PortsUntouched s t
      ∧ if s.bufMax < s.ilen.toNat then EndsInError s t .badLength 0x00
        else if b64UrlDecode s.input = none then EndsInError s t .base64DecodeFailed 0x00
        else EndsInSuccess s t := by
  obtain ⟨t, hexec, hanswers, hend⟩ := exec_endsWith (i := .b64d) nofun s
  rw [workOf, run_b64dPhases] at hend
  refine ⟨t, hexec, ?_⟩
  cases htext : b64UrlDecode s.input <;> simp only [htext, reduceCtorEq, ↓reduceIte] at hend ⊢ <;> split_ifs at hend ⊢
  all_goals exact ⟨portsUntouched_of_nothing_asked hanswers hend.2, hend.1⟩

/-- Settles O33, command by command. -/
theorem transcoderErrorsInOrder : Obligations.TranscoderErrorsInOrder := fun s => ⟨b64e_errorsInOrder s, b64d_errorsInOrder s⟩

/-- Settles O35: the two tests of C_ADMIT raise the same error. -/
theorem cteqErrorsInOrder : Obligations.CteqErrorsInOrder := by
  intro s
  obtain ⟨t, hexec, hanswers, hend⟩ := exec_endsWith (i := .cteq) nofun s
  rw [workOf, run_cteqPhases] at hend
  refine ⟨t, hexec, ?_⟩
  by_cases hlen : s.bufMax < s.ilen.toNat <;> by_cases halen : s.ilen.toNat < s.alen.toNat <;>
    simp only [hlen, halen, true_or, or_true, or_self, if_true, if_false] at hend ⊢
  all_goals exact ⟨portsUntouched_of_nothing_asked hanswers hend.2, hend.1⟩

/-! ### ENC and DEC -/

/-- How many IV bytes ENC was given, tested as a byte or as a number. -/
theorem encVectorLen_eq_iff {ivsrc : Bool} {s : State} :
    encVectorLen ivsrc s = 16 ↔ (if ivsrc then s.ivlen else s.draws.rngLen) = 16 := by
  have hbyte : ∀ b : Byte, b.toNat = 16 ↔ b = 16 := fun b => BitVec.toNat_inj (y := (16 : Byte))
  cases ivsrc
  · exact hbyte s.draws.rngLen
  · exact hbyte s.ivlen

/-- Settles O23: the tests of `run_encPhases`, the IV's length read as a number (`encVectorLen_eq_iff`). -/
theorem encErrorsInOrder : Obligations.EncErrorsInOrder := by
  intro ivsrc tssrc s
  obtain ⟨t, hexec, hanswers, hend⟩ := exec_endsWith (i := .enc ivsrc tssrc) nofun s
  simp only [workOf, run_encPhases, ne_eq, ← encVectorLen_eq_iff] at hend
  refine ⟨t, hexec, hanswers, ?_⟩
  simp only [ne_eq]
  split_ifs at hend ⊢
  iterate 3 · exact ⟨hend.1, by simpa using hend.2⟩
  all_goals exact hend.1

/-- Phase D2's test, written out as spec/40_token_framer.md rule R112 has it. -/
theorem lengthOk_eq_false_iff {len : Nat} : lengthOk len = false ↔ ¬ (73 ≤ len ∧ (len - 57) % 16 = 0) := by
  rw [← lengthOk_eq_true_iff, Bool.not_eq_true]

/-- What D3 and D4 look at in a token of valid length, as slices of the token (spec/40_token_framer.md rules R111, R113). -/
theorem decryptPayload_split {tok : Bytes} (hok : lengthOk tok.length = true) (ek : Bytes) :
    decryptPayload ek (toVec 16 (splitToken tok).iv).toList (splitToken tok).ct
      = decryptPayload ek (slice tok 9 25) (slice tok 25 (tok.length - 32)) := by
  obtain ⟨-, hiv, -⟩ := splitToken_fields hok
  rw [hiv]
  rfl

/-- Settles O26: the tests of `run_decPhases`, the fields of the token read as slices of it (`splitToken_fields`,
`decryptPayload_split`). -/
theorem decErrorsInOrder : Obligations.DecErrorsInOrder := by
  intro s
  obtain ⟨t, hexec, hanswers, hend⟩ := exec_endsWith (i := .dec) nofun s
  rw [workOf, run_decPhases] at hend
  refine ⟨t, hexec, hanswers, ?_⟩
  cases htext : b64UrlDecode s.input with
  | none =>
    simp only [htext] at hend ⊢
    split_ifs at hend ⊢
    all_goals exact hend.1
  | some tok =>
    simp only [htext, ← lengthOk_eq_false_iff] at hend ⊢
    by_cases hok : lengthOk tok.length = false
    · simp only [hok, if_true] at hend ⊢
      split_ifs at hend ⊢
      all_goals exact hend.1
    · obtain ⟨-, -, hversion⟩ := splitToken_fields (by simpa using hok)
      have hplain := decryptPayload_split (by simpa using hok) s.ek.toList
      simp only [hplain, if_neg hok, ne_eq, hversion] at hend ⊢
      cases hp : decryptPayload s.ek.toList (slice tok 9 25) (slice tok 25 (tok.length - 32)) <;> simp only [hp] at hend ⊢ <;>
        split_ifs at hend ⊢
      all_goals exact hend.1

end Sys2Proof.Machine
end

section
/-! SUPPORT. What each command leaves when it succeeds (spec/42_key_load.md rule R147, spec/43_token_encode.md rule R155,
spec/44_token_decode.md rules R165, R167, spec/45_base64url.md rules R183, R184, spec/46_ct_compare.md rule R196). -/

namespace Sys2Proof.Machine

/-! ### Key load -/

/-- The halves of a 32-byte key (spec/42_key_load.md rule R147). -/
theorem keyHalves_toList {raw : Bytes} (h : raw.length = 32) :
    (keySk raw).toList = raw.take 16 ∧ (keyEk raw).toList = raw.drop 16 := by
  constructor
  · rw [keySk, toList_toVec (by simp [h]), slice_zero]
  · rw [keyEk, toList_toVec (by simp [h]), slice, List.take_of_length_le (by simp [h])]

/-- The frame of a key load that succeeds: the keys, and the bookkeeping of the completion. -/
theorem keyLoaded_frame (raw : Bytes) (s : State) :
    EndsInSuccess s (keyLoaded raw s) ∧ SameOutputs s (keyLoaded raw s) ∧ (keyLoaded raw s).hmacOk = s.hmacOk
      ∧ (keyLoaded raw s).eq = s.eq ∧ PortsUntouched s (keyLoaded raw s) :=
  ⟨keyCommit_endsInSuccess { Flight.start with inp := raw, sk := keySk raw, ek := keyEk raw } s, ⟨fun _ => rfl, rfl, rfl, rfl⟩,
    rfl, rfl, List.append_nil _, rfl⟩

theorem getElem_of_toList_eq {n : Nat} {v : Vector Byte n} {l : Bytes} (h : v.toList = l) {j : Nat} (hj : j < n)
    (hl : j < l.length) : v[j] = l[j] := by
  subst h
  simp

theorem State.input_getElem (s : State) {j : Nat} (hj : j < s.input.length) : s.input[j] = s.ibuf.read j := by
  simp [State.input, Memory.readN]

/-- Settles O16: byte `j` of a half is the byte of IBUF that the half takes from there. -/
theorem keyldRawLoadsBothHalves : Obligations.KeyldRawLoadsBothHalves := by
  intro s hfits hkey hlen
  have hraw : s.input.length = 32 := by rw [State.input_length, hlen]
  obtain ⟨hsk, hek⟩ := keyHalves_toList hraw
  refine ⟨keyLoaded s.input s, exec_keyldRaw_of_admitted hfits hkey hraw, fun j hj => ⟨?_, ?_⟩, rfl, keyLoaded_frame s.input s⟩
  · calc (keySk s.input)[j]
      _ = (s.input.take 16)[j]'(by simp [hraw, hj]) := getElem_of_toList_eq hsk hj _
      _ = s.ibuf.read j := by rw [List.getElem_take, State.input_getElem]
  · calc (keyEk s.input)[j]
      _ = (s.input.drop 16)[j]'(by simp [hraw]; omega) := getElem_of_toList_eq hek hj _
      _ = s.ibuf.read (16 + j) := by rw [List.getElem_drop, State.input_getElem]

/-- Settles O18: `keyLoaded` of the decoded bytes. -/
theorem keyldB64LoadsDecodedHalves : Obligations.KeyldB64LoadsDecodedHalves := by
  intro s raw hfits hkey hdecode hraw
  obtain ⟨hsk, hek⟩ := keyHalves_toList hraw
  exact ⟨keyLoaded raw s, exec_keyldB64_of_admitted hfits hkey hdecode hraw, hsk, hek, rfl, keyLoaded_frame raw s⟩

/-! ### Transcoder -/

/-- What the transcoder's commands leave on success with the output `out`. -/
def transcoded (out : Bytes) (s : State) : State := (s.putOutput out).finish []

theorem transcoded_outputIs {s : State} {out : Bytes} (hw : s.obuf.wf) (hl : out.length < 2 ^ 16) :
    OutputIs s (transcoded out s) out := putOutput_outputIs hw hl []

theorem transcoded_frame (out : Bytes) (s : State) :
    EndsInSuccess s (transcoded out s) ∧ SameKeys s (transcoded out s) ∧ (transcoded out s).hmacOk = s.hmacOk
      ∧ (transcoded out s).eq = s.eq ∧ (transcoded out s).tsOut = s.tsOut ∧ PortsUntouched s (transcoded out s) :=
  ⟨transcodeCommit_endsInSuccess { Flight.start with out := out } s, ⟨rfl, rfl, rfl⟩, rfl, rfl, rfl, List.append_nil _, rfl⟩

theorem exec_b64e_of_admitted {s : State} (hfits : s.ilen.toNat ≤ s.bufMax) (hroom : b64Len s.ilen.toNat ≤ s.bufMax) :
    exec .b64e s = .next (transcoded (b64UrlEncode s.input) s) := by
  have hrun := run_b64ePhases s
  rw [if_neg (Nat.not_lt.mpr hfits), if_neg (Nat.not_lt.mpr hroom)] at hrun
  exact congrArg Host.Outcome.next (complete_of_ok hrun)

theorem exec_b64d_of_admitted {s : State} {r : Bytes} (hfits : s.ilen.toNat ≤ s.bufMax) (hdecode : b64UrlDecode s.input = some r) :
    exec .b64d s = .next (transcoded r s) := by
  have hrun := run_b64dPhases s
  rw [if_neg (Nat.not_lt.mpr hfits), hdecode] at hrun
  exact congrArg Host.Outcome.next (complete_of_ok hrun)

/-- Settles O31: the encoding has `B64Len(ILEN)` characters, which BUF_MAX bounds. -/
theorem b64eEncodesTheInput : Obligations.B64eEncodesTheInput := by
  intro s hparam hw hfits hroom
  have hlen : (b64UrlEncode s.input).length = b64Len s.ilen.toNat := by simp
  have hout : OutputIs s (transcoded (b64UrlEncode s.input) s) (b64UrlEncode s.input) := transcoded_outputIs hw (by omega)
  exact ⟨_, exec_b64e_of_admitted hfits hroom, hout, hout.olen.trans hlen, transcoded_frame _ s⟩

/-- Settles O32: the length of the decoded bytes is bounded by `b64UrlDecode_length`. -/
theorem b64dDecodesTheInput : Obligations.B64dDecodesTheInput := by
  intro s r hparam hw hfits hdecode
  have hlen : r.length ≤ 3 * s.ilen.toNat / 4 := by simpa using b64UrlDecode_length hdecode
  have hout : OutputIs s (transcoded r s) r := transcoded_outputIs hw (by omega)
  exact ⟨_, exec_b64d_of_admitted hfits hdecode, hout, hout.olen.trans_le hlen, transcoded_frame r s⟩

/-! ### Comparator -/

/-- Two stretches of a buffer hold the same byte string exactly when they have the same length and the same bytes. -/
theorem Memory.readN_eq_readN_iff {m : Memory} {i j n k : Nat} :
    m.readN i n = m.readN j k ↔ n = k ∧ ∀ l < n, m.read (i + l) = m.read (j + l) := by
  constructor
  · intro h
    obtain rfl : n = k := by simpa using congrArg List.length h
    simpa [Memory.readN] using h
  · rintro ⟨rfl, h⟩
    simpa [Memory.readN] using h

/-- What CTEQ leaves on success. -/
def compared (s : State) : State := (cteqCommit { Flight.start with ok := ctEq s.operandA s.operandB } s).finish []

theorem exec_cteq_of_admitted {s : State} (hfits : s.ilen.toNat ≤ s.bufMax) (halen : s.alen.toNat ≤ s.ilen.toNat) :
    exec .cteq s = .next (compared s) := by
  have hrun := run_cteqPhases s
  rw [if_neg (Nat.not_lt.mpr hfits), if_neg (Nat.not_lt.mpr halen)] at hrun
  exact congrArg Host.Outcome.next (complete_of_ok hrun)

/-- Settles O34: the comparator is equality (`ctEq_eq_true_iff`), and the operands are two stretches of IBUF. -/
theorem cteqComparesTheOperands : Obligations.CteqComparesTheOperands := by
  intro s hfits halen
  have heq : (compared s).eq = true ↔ s.operandA = s.operandB := ctEq_eq_true_iff
  refine ⟨compared s, exec_cteq_of_admitted hfits halen, ?_, cteqCommit_endsInSuccess { Flight.start with ok := _ } s,
    ⟨rfl, rfl, rfl⟩, ⟨fun _ => rfl, rfl, rfl, rfl⟩, rfl, List.append_nil _, rfl⟩
  rw [heq, State.operandA, State.operandB, Memory.readN_eq_readN_iff]
  simp only [Nat.zero_add]
  exact and_congr_left' (by omega)

/-! ### ENC -/

theorem run_encPhases_of_admitted {ivsrc tssrc : Bool} {s : State} (hfits : s.ilen.toNat ≤ s.bufMax) (hkey : s.keyValid = true)
    (hroom : b64Len (tokenLen s.ilen.toNat) ≤ s.bufMax) (hiv : encVectorLen ivsrc s = 16) (haes : s.draws.aesFault = 0)
    (hmac : s.draws.macFault = 0) : runPhases (encPhases ivsrc tssrc s) Flight.start = .ok (encFlight ivsrc tssrc s) := by
  rw [run_encPhases, if_neg (Nat.not_lt.mpr hfits), if_neg (by simp [hkey]), if_neg (Nat.not_lt.mpr hroom),
    if_neg (not_not.mpr (encVectorLen_eq_iff.mp hiv)), if_neg (not_not.mpr haes), if_neg (not_not.mpr hmac)]

theorem encFlight_ts_toList (ivsrc tssrc : Bool) (s : State) : (encFlight ivsrc tssrc s).ts.toList = encStamp tssrc s := by
  cases tssrc
  · exact toList_toVec (be_length 8 _)
  · rfl

theorem encFlight_iv_toList (ivsrc tssrc : Bool) (s : State) : (encFlight ivsrc tssrc s).iv.toList = encVector ivsrc s := by
  cases ivsrc <;> rfl

/-- The ciphertext, the body and the requests of ENC in terms of its declared timestamp and IV. -/
theorem encFlight_ct (ivsrc tssrc : Bool) (s : State) :
    (encFlight ivsrc tssrc s).ct = encryptPayload s.ek.toList (encVector ivsrc s) s.input :=
  congrArg (encryptPayload s.ek.toList · s.input) (encFlight_iv_toList ivsrc tssrc s)

theorem encFlight_body (ivsrc tssrc : Bool) (s : State) :
    (encFlight ivsrc tssrc s).body =
      [0x80] ++ encStamp tssrc s ++ encVector ivsrc s ++ encryptPayload s.ek.toList (encVector ivsrc s) s.input := by
  rw [← encFlight_ct ivsrc tssrc, ← encFlight_iv_toList ivsrc tssrc, ← encFlight_ts_toList ivsrc tssrc]
  rfl

theorem encFlight_out (ivsrc tssrc : Bool) (s : State) :
    (encFlight ivsrc tssrc s).out =
      b64UrlEncode ((encFlight ivsrc tssrc s).body ++ hmacSha256 s.sk.toList (encFlight ivsrc tssrc s).body) := rfl

theorem encFlight_asked (ivsrc tssrc : Bool) (s : State) :
    (encFlight ivsrc tssrc s).asked = (if tssrc then [] else [.now]) ++ (if ivsrc then [] else [.rng 16])
      ++ encryptAsks s.ek.toList (encVector ivsrc s) s.input ++ tagAsks s.sk.toList (encFlight ivsrc tssrc s).body := by
  rw [← encFlight_iv_toList ivsrc tssrc]
  rfl

/-- What ENC leaves when its phases end with the values `f`. -/
def encoded (f : Flight) (s : State) : State := (encCommit f s.takeDraws).finish f.asked

theorem encoded_frame (f : Flight) (s : State) :
    EndsInSuccess s (encoded f s) ∧ SameKeys s (encoded f s) ∧ (encoded f s).hmacOk = s.hmacOk
      ∧ (encoded f s).eq = s.eq ∧ (encoded f s).answers = s.answers.tail :=
  ⟨(encCommit_endsInSuccess f s.takeDraws).of_takeDraws, ⟨rfl, rfl, rfl⟩, rfl, rfl, rfl⟩

@[simp] theorem encoded_requests (f : Flight) (s : State) : (encoded f s).requests = s.requests ++ f.asked := rfl

@[simp] theorem encoded_tsOut (f : Flight) (s : State) : (encoded f s).tsOut = f.ts := rfl

theorem encoded_outputIs {f : Flight} {s : State} (hw : s.obuf.wf) (hl : f.out.length < 2 ^ 16) :
    OutputIs s (encoded f s) f.out := by
  have hput := putOutput_outputIs hw hl []
  exact ⟨hput.olen, hput.bytes, hput.rest⟩

/-- Settles O22: the command ends with `encFlight`, whose parts are the token's. -/
theorem encMakesTheToken : Obligations.EncMakesTheToken := by
  intro ivsrc tssrc s hparam hw hfits hkey hroom hiv haes hmac ts iv ct body txt
  have hrun := run_encPhases_of_admitted (tssrc := tssrc) hfits hkey hroom hiv haes hmac
  have hexec : exec (.enc ivsrc tssrc) s = .next (encoded (encFlight ivsrc tssrc s) s) := congrArg Host.Outcome.next (complete_of_ok hrun)
  have hbody : (encFlight ivsrc tssrc s).body = body := encFlight_body ivsrc tssrc s
  have htxt : (encFlight ivsrc tssrc s).out = txt := by rw [encFlight_out, hbody]
  have hlen : txt.length = b64Len (tokenLen s.ilen.toNat) := by rw [← htxt, encFlight_out_length]
  have hout : OutputIs s (encoded (encFlight ivsrc tssrc s) s) txt := htxt ▸ encoded_outputIs hw (by rw [htxt]; omega)
  have hts : (encoded (encFlight ivsrc tssrc s) s).tsOut.toList = ts := by rw [encoded_tsOut, encFlight_ts_toList]
  obtain ⟨hsuccess, hkeys, hhmac, heq, hanswers⟩ := encoded_frame (encFlight ivsrc tssrc s) s
  refine ⟨encoded (encFlight ivsrc tssrc s) s, hexec, hout, hout.olen.trans hlen, hts, hsuccess, hkeys, hhmac, heq, hanswers, ?_⟩
  rw [encoded_requests, encFlight_asked, hbody]

/-- Two states that agree on what ENC reads give its phases the same result (spec/43_token_encode.md rule R156). -/
theorem run_encPhases_congr {ivsrc tssrc : Bool} {s u : State} (hbuf : s.bufMax = u.bufMax) (hsk : s.sk = u.sk) (hek : s.ek = u.ek)
    (hkey : s.keyValid = u.keyValid) (hilen : s.ilen = u.ilen) (hinput : s.input = u.input)
    (hts : (if tssrc then s.ts else be8 s.draws.nowSec) = (if tssrc then u.ts else be8 u.draws.nowSec))
    (hiv : (if ivsrc then s.iv else s.draws.rngBytes) = (if ivsrc then u.iv else u.draws.rngBytes))
    (hivlen : (if ivsrc then s.ivlen else s.draws.rngLen) = (if ivsrc then u.ivlen else u.draws.rngLen))
    (haes : s.draws.aesFault = u.draws.aesFault) (hmac : s.draws.macFault = u.draws.macFault) :
    runPhases (encPhases ivsrc tssrc s) Flight.start = runPhases (encPhases ivsrc tssrc u) Flight.start := by
  rw [run_encPhases, run_encPhases, encFlight, encFlight, hbuf, hsk, hek, hkey, hilen, hinput, hts, hiv, hivlen, haes, hmac]

/-- From cleared results and with equal keys, equal results of the phases leave equal outputs, errors, flags and keys. -/
theorem complete_encCommit_congr {ps qs : List PhaseWork} {s u : State}
    (hruns : runPhases ps Flight.start = runPhases qs Flight.start) (hs : s.OutputsClear) (hu : u.OutputsClear)
    (hkeys : SameKeys s u) (herr : s.err = u.err) (hinfo : s.errInfo = u.errInfo) :
    let t := s.complete ps encCommit
    let v := u.complete qs encCommit
    t.obuf = v.obuf ∧ t.olen = v.olen ∧ t.tsOut = v.tsOut ∧ t.err = v.err ∧ t.errInfo = v.errInfo
      ∧ t.statusByte = v.statusByte ∧ SameKeys t v := by
  obtain ⟨hsolen, hsobuf, hsts, hshmac, hseq⟩ := hs
  obtain ⟨huolen, huobuf, huts, huhmac, hueq⟩ := hu
  cases hrun : runPhases ps Flight.start with
  | error e =>
    rw [complete_of_error hrun, complete_of_error (hruns.symm.trans hrun)]
    refine ⟨hsobuf.trans huobuf.symm, hsolen.trans huolen.symm, hsts.trans huts.symm, rfl, rfl, ?_, hkeys.sk, hkeys.ek, hkeys.keyValid⟩
    simp [State.statusByte, State.errf, hshmac, huhmac, hseq, hueq, hkeys.keyValid]
  | ok f =>
    rw [complete_of_ok hrun, complete_of_ok (hruns.symm.trans hrun)]
    refine ⟨?_, rfl, rfl, herr, hinfo, ?_, hkeys.sk, hkeys.ek, hkeys.keyValid⟩
    · simp [encCommit, hsobuf, huobuf]
    · simp [State.statusByte, State.errf, encCommit, herr, hshmac, huhmac, hseq, hueq, hkeys.keyValid]

/-- Settles O24: the phases give the same result (`run_encPhases_congr`), and what is left of the states before is cleared. -/
theorem encIsAFunctionOfItsInputs : Obligations.EncIsAFunctionOfItsInputs := by
  intro ivsrc tssrc s u hbuf hsk hek hkey hilen hinput hstamp hvector hcount haes hmac hs hu hserr huerr hsinfo huinfo
  rw [← encFlight_ts_toList ivsrc tssrc, ← encFlight_ts_toList ivsrc tssrc u] at hstamp
  rw [← encFlight_iv_toList ivsrc tssrc, ← encFlight_iv_toList ivsrc tssrc u] at hvector
  have hivlen : (if ivsrc then s.ivlen else s.draws.rngLen) = (if ivsrc then u.ivlen else u.draws.rngLen) := by
    apply BitVec.eq_of_toNat_eq
    cases ivsrc <;> exact hcount
  have hrun := run_encPhases_congr hbuf hsk hek hkey hilen hinput (Vector.toList_inj.mp hstamp) (Vector.toList_inj.mp hvector)
    hivlen haes hmac
  exact ⟨_, _, rfl, rfl, complete_encCommit_congr (s := s.takeDraws) (u := u.takeDraws) hrun hs hu
    ⟨hsk.symm, hek.symm, hkey.symm⟩ (hserr.trans huerr.symm) (hsinfo.trans huinfo.symm)⟩

/-! ### DEC -/

/-- What DEC leaves when its phases end with the values `f`. -/
def opened (f : Flight) (s : State) : State := (decCommit f s.takeDraws).finish f.asked

theorem opened_frame (f : Flight) (s : State) :
    EndsInSuccess s (opened f s) ∧ SameKeys s (opened f s) ∧ (opened f s).eq = s.eq ∧ (opened f s).answers = s.answers.tail :=
  ⟨(decCommit_endsInSuccess f s.takeDraws).of_takeDraws, ⟨rfl, rfl, rfl⟩, rfl, rfl⟩

@[simp] theorem opened_requests (f : Flight) (s : State) : (opened f s).requests = s.requests ++ f.asked := rfl

@[simp] theorem opened_hmacOk (f : Flight) (s : State) : (opened f s).hmacOk = f.ok := rfl

theorem opened_outputIs {f : Flight} {s : State} (hw : s.obuf.wf) (hl : f.out.length < 2 ^ 16) :
    OutputIs s (opened f s) f.out := by
  have hput := putOutput_outputIs hw hl []
  exact ⟨hput.olen, hput.bytes, hput.rest⟩

/-- The parts of a token that DEC authenticates and compares, as the front and the last 32 bytes of the token. -/
theorem splitToken_body_tag (tok : Bytes) :
    (splitToken tok).body = tok.take (tok.length - 32) ∧ (splitToken tok).tag = tok.drop (tok.length - 32) := by
  constructor
  · exact slice_zero tok _
  · exact List.take_of_length_le (by rw [List.length_drop])

theorem decFlight_ok_iff (s : State) (tok p : Bytes) :
    (decFlight s tok p).ok = true ↔ hmacSha256 s.sk.toList (tok.take (tok.length - 32)) = tok.drop (tok.length - 32) := by
  obtain ⟨hbody, htag⟩ := splitToken_body_tag tok
  rw [← hbody, ← htag]
  exact ctEq_eq_true_iff

/-- Settles O25: the token opens, and the comparison's result is the flag. -/
theorem decDeliversPlaintextAndFlag : Obligations.DecDeliversPlaintextAndFlag := by
  intro s tok p hparam hw hfits hkey hdecode hmin haligned hhead haes hmac hplain body
  have hok : lengthOk tok.length = true := lengthOk_eq_true_iff.mpr ⟨hmin, haligned⟩
  obtain ⟨hts, -, hversion⟩ := splitToken_fields hok
  have hopens : s.Opens tok p :=
    ⟨hfits, hkey, hdecode, hok, hversion.mpr hhead, haes, hmac, (decryptPayload_split hok _).trans hplain⟩
  have hshort : p.length ≤ s.ilen.toNat := decrypted_length_le hdecode hopens.plaintext
  have hbody : (splitToken tok).body = body := (splitToken_body_tag tok).1
  have hasked : (decFlight s tok p).asked
      = decryptAsks s.ek.toList (slice tok 25 (tok.length - 32)) ++ tagAsks s.sk.toList body := by
    rw [← hbody]
    rfl
  have hout : OutputIs s (opened (decFlight s tok p) s) p :=
    opened_outputIs (f := decFlight s tok p) hw (show p.length < 2 ^ 16 by omega)
  obtain ⟨hsuccess, hkeys, heq, hanswers⟩ := opened_frame (decFlight s tok p) s
  refine ⟨opened (decFlight s tok p) s, hopens.exec_dec, hout, hts, decFlight_ok_iff s tok p, hsuccess, hkeys,
    heq, hanswers, ?_⟩
  rw [opened_requests, hasked]

theorem slice_take {s : Bytes} {i j n : Nat} (h : j ≤ n) : slice (s.take n) i j = slice s i j := by
  rw [slice, slice, List.drop_take, List.take_take, Nat.min_eq_left (by omega)]

/-- Every field of a token but the tag stands in its body. -/
theorem splitToken_eq_of_body {tok body : Bytes} (hok : lengthOk tok.length = true) (hbody : tok.take (tok.length - 32) = body) :
    splitToken tok =
      { ver := body.getD 0 0, ts := slice body 1 9, iv := slice body 9 25, ct := slice body 25 (tok.length - 32),
        tag := tok.drop (tok.length - 32), body := body } := by
  obtain ⟨hmin, -⟩ := lengthOk_eq_true_iff.mp hok
  obtain ⟨hbodyField, htagField⟩ := splitToken_body_tag tok
  have hver : (tok.take (tok.length - 32)).getD 0 0 = tok.getD 0 0 := by
    rw [List.getD_eq_getElem?_getD, List.getElem?_take_of_lt (by omega), List.getD_eq_getElem?_getD]
  rw [← hbody, slice_take (by omega), slice_take (by omega), slice_take le_rfl, hver, ← hbodyField, ← htagField]
  rfl

/-- A successful DEC is one that opened a token. -/
theorem opens_of_exec_dec {s t : State} (hexec : exec .dec s = .next t) (herr : t.err = .ok) :
    ∃ tok p, s.Opens tok p ∧ t = opened (decFlight s tok p) s := by
  rcases exec_ends (i := .dec) nofun s with ⟨e, hrun, hend⟩ | ⟨f, hrun, hend⟩
  · obtain rfl : _ = t := Host.Outcome.next.inj (hend.symm.trans hexec)
    exact absurd herr (run_workOf_error_listed hrun).notOk
  · obtain ⟨tok, p, hopens, rfl⟩ := run_decPhases_ok hrun
    exact ⟨tok, p, hopens, (Host.Outcome.next.inj (hend.symm.trans hexec)).symm⟩

/-- Settles O30: the second token has the fields of the first but for the tag (`splitToken_eq_of_body`), so it opens to the same
plaintext, and its tag is not the one that the first token's was found equal to. -/
theorem changedTagClearsTheFlagOnly : Obligations.ChangedTagClearsTheFlagOnly := by
  intro s u t tok tok' hclear hu hfits hdecode hdecode' hlen hbody htag hexec herr hhmac
  generalize u.ibuf = ibuf at hu
  generalize u.ilen = ilen at hu
  subst hu
  obtain ⟨tok₀, p, hopens, rfl⟩ := opens_of_exec_dec hexec herr
  obtain rfl : tok₀ = tok := Option.some.inj (hopens.decoded.symm.trans hdecode)
  have hok' : lengthOk tok'.length = true := hlen ▸ hopens.length
  have hfields : splitToken tok' = { splitToken tok₀ with tag := (splitToken tok').tag } := by
    rw [splitToken_eq_of_body hopens.length rfl, splitToken_eq_of_body hok' hbody.symm, hlen]
  have hopens' : State.Opens { s with ibuf := ibuf, ilen := ilen } tok' p :=
    ⟨hfits, hopens.keyValid, hdecode', hok', by rw [hfields]; exact hopens.version, hopens.noAesFault, hopens.noMacFault,
      by rw [hfields]; exact hopens.plaintext⟩
  have hflag : (decFlight { s with ibuf := ibuf, ilen := ilen } tok' p).ok = false := by
    rw [← Bool.not_eq_true, decFlight_ok_iff, ← hbody]
    rw [opened_hmacOk, decFlight_ok_iff] at hhmac
    exact fun hauth => htag (hhmac.symm.trans hauth)
  have hstamp : (decFlight { s with ibuf := ibuf, ilen := ilen } tok' p).ts = (decFlight s tok₀ p).ts := by
    simp only [decFlight]
    rw [hfields]
  exact ⟨opened (decFlight { s with ibuf := ibuf, ilen := ilen } tok' p) _, hopens'.exec_dec, hclear, hflag, rfl, rfl, hstamp⟩

end Sys2Proof.Machine
end

section
/-! SUPPORT. The step seen whole: what the sequencer's move does (spec/10_state.md rules R33, R39, spec/70_reset_and_hazards.md rules
R281, R296), what the reset pin does (rules R280, R282), and who may write what (spec/10_state.md rules R20, R24, R44). -/

namespace Sys2Proof.Machine

/-! ### The sequencer's move -/

/-- Settles O6: the pin is released and BUSY is 0, so `sequencerMove` keeps the state that the slot left. -/
theorem idleSequencerDoesNothing : Obligations.IdleSequencerDoesNothing := by
  intro s hidle hrst hnext
  have hbusy : s.afterSlot.busy = false := hidle
  rw [step_of_sequencerNext hnext, served_of_released hrst]
  simp [sequencerMove, hbusy]

/-- With a command in flight and the pin released the move is the command's complete step. -/
theorem step_of_busy {s : State} (hbusy : s.busy = true) (hrst : s.rst = false) (hnext : s.SequencerNext) :
    step s = runCommand s.afterSlot := by
  have hslotBusy : s.afterSlot.busy = true := hbusy
  have hslotRst : s.afterSlot.rst = false := hrst
  rw [step_of_sequencerNext hnext, served_of_released hrst, sequencerMove, hslotBusy, hslotRst]
  rfl

theorem runCommand_of_decoded {s : State} {i : Instr} (h : decode s.cmd = .ok i) : runCommand s = exec i s := by
  simp [runCommand, h]

theorem runCommand_of_illegal {s : State} {e : Illegal} (h : decode s.cmd = .error e) : runCommand s = execIllegal s := by
  simp [runCommand, h]

/-- Settles O5: the move is `runCommand`, which looks at CMD alone to find the instruction. -/
theorem stepRunsTheDecodedCommand : Obligations.StepRunsTheDecodedCommand := by
  intro s i hdecode _ hbusy hrst hnext
  rw [step_of_busy hbusy hrst hnext, runCommand_of_decoded (s := s.afterSlot) hdecode]

/-- Every command's complete step ends idle, and with DONE except for SRST. -/
theorem runCommand_completes (s : State) :
    ∃ t, runCommand s = .next t ∧ t.busy = false ∧ t.phase = .idle ∧ (t.done = true ↔ decode s.cmd ≠ .ok .srst) := by
  cases hdecode : decode s.cmd with
  | error e => exact ⟨_, (runCommand_of_illegal hdecode).trans (execIllegal_eq s), rfl, rfl, by simp⟩
  | ok i =>
    rw [runCommand_of_decoded hdecode]
    by_cases hi : i = .srst
    · subst hi
      exact ⟨_, exec_srst s, rfl, rfl, by simp⟩
    · obtain ⟨t, hexec, -, hend⟩ := exec_endsWith hi s
      obtain ⟨hdone, hbusy, hphase, -, -⟩ := hend.completesOnce
      exact ⟨t, hexec, hbusy, hphase, by simp [hdone, hi]⟩

/-- Settles O48: the move is `runCommand`, and every command completes (`runCommand_completes`). -/
theorem acceptedCommandCompletes : Obligations.AcceptedCommandCompletes := by
  intro s hbusy hrst hnext
  rw [step_of_busy hbusy hrst hnext]
  exact runCommand_completes s.afterSlot

/-- Settles O8: the write is the accept step, and the step after it, with nothing left to arrive, is the complete step of X_ILLEGAL. -/
theorem illegalByteEndsWithIllegalCommand : Obligations.IllegalByteEndsWithIllegalCommand := by
  intro s c e hdecode harrivals hrst hidle
  have hslot : s.afterSlot.arrivals = [] := by simp [State.afterSlot, harrivals]
  have haccept : step s = .next (s.afterSlot.accept c) := by
    rw [step_of_write harrivals, served_of_released hrst, State.hostWrite_cmd_of_idle (s := s.afterSlot) hidle hrst]
  have hnext : (s.afterSlot.accept c).SequencerNext := .inl hslot
  have hcomplete := step_of_busy (s := s.afterSlot.accept c) rfl hrst hnext
  rw [runCommand_of_illegal (s := (s.afterSlot.accept c).afterSlot) hdecode, execIllegal_eq] at hcomplete
  exact ⟨_, _, haccept, hcomplete, rfl, rfl, rfl, rfl, rfl, rfl, rfl, ⟨rfl, rfl, rfl, rfl, rfl⟩, fun _ => rfl, ⟨rfl, rfl, rfl⟩,
    ⟨fun _ => rfl, rfl, rfl, rfl, rfl, rfl, rfl⟩, List.append_nil _, rfl⟩

/-- No phase looks at the working registers (spec/10_state.md rule R43). -/
theorem workOf_of_work (i : Instr) (s : State) (w : Working) : workOf i { s with work := w } = workOf i s := by
  cases i <;> rfl

/-- The completion overwrites the working registers, whatever they held. -/
theorem complete_commitOf_of_work (i : Instr) (s : State) (w : Working) (phases : List PhaseWork) :
    (State.drawn { s with work := w } i).complete phases (commitOf i) = (s.drawn i).complete phases (commitOf i) := by
  unfold State.complete
  cases runPhases phases Flight.start <;> cases i <;> rfl

/-- Settles O47: accept overwrites each of the named elements, and nothing reads the working registers. -/
theorem nothingHiddenIsCarriedOver : Obligations.NothingHiddenIsCarriedOver := by
  refine ⟨fun _ _ _ => rfl, fun i s w => ?_⟩
  by_cases hi : i = .srst
  · subst hi
    rfl
  · rw [exec_eq_complete_workOf hi, exec_eq_complete_workOf hi, complete_commitOf_of_work, workOf_of_work]

/-! ### Reset -/

/-- Settles O14: SRST's complete step is `State.resetBlock`, which keeps the surroundings. -/
theorem srstLeavesTheResetState : Obligations.SrstLeavesTheResetState := fun s =>
  ⟨_, exec_srst s, atReset_of_resetBlock_eq rfl, rfl, rfl, ⟨rfl, rfl, rfl, rfl⟩, ⟨rfl, rfl⟩⟩

/-- While the pin is asserted every step works on the reset block. -/
theorem served_of_asserted {s : State} (h : s.rst = true) : s.served = s.afterSlot.resetBlock := by
  rw [State.served, held_of_asserted h]
  rfl

/-- The reset block reads 0x00 at every place. -/
theorem State.resetBlock_readLoc (s : State) (l : Loc) : s.resetBlock.readLoc l = 0x00 := by
  cases l with
  | status => exact s.resetBlock_statusByte
  | ts i => exact zeroVec_getElem 8 i i.isLt
  | tsOut i => exact zeroVec_getElem 8 i i.isLt
  | iv i => exact zeroVec_getElem 16 i i.isLt
  | ilenH | olenH | alenH => exact (by decide : highByte 0 = 0x00)
  | _ => rfl

theorem State.hostWrite_of_asserted {s : State} (h : s.rst = true) (a : BusAddr) (b : Byte) : s.hostWrite a b = s := by
  simp [State.hostWrite, h]

theorem sequencerMove_of_asserted {s : State} (h : s.rst = true) : sequencerMove s = .next s := by simp [sequencerMove, h]

/-- While the pin is asserted the sequencer's move leaves the reset block. -/
theorem step_of_sequencerNext_asserted {s : State} (h : s.rst = true) (hnext : s.SequencerNext) :
    step s = .next s.afterSlot.resetBlock := by
  rw [step_of_sequencerNext hnext, served_of_asserted h, sequencerMove_of_asserted (s := s.afterSlot.resetBlock) h]

/-- Settles O51: `step_of_sequencerNext_asserted`, and what `State.resetBlock` keeps. -/
theorem nothingRunsWhileTheResetPinHolds : Obligations.NothingRunsWhileTheResetPinHolds := fun _ hrst hnext =>
  ⟨_, step_of_sequencerNext_asserted hrst hnext, resetBlock_atReset _, ⟨rfl, rfl, rfl, rfl⟩, ⟨rfl, rfl⟩, rfl⟩

/-- Asserting the pin keeps what is outside the block, whether it was asserted before or not. -/
theorem setRst_served_frame (s : State) :
    (s.served.setRst true).completed = s.completed ∧ PortsUntouched s (s.served.setRst true)
      ∧ (s.served.setRst true).bufMax = s.bufMax ∧ (s.served.setRst true).arrivals = s.arrivals.tail
      ∧ (s.served.setRst true).reads = s.reads := by
  cases hrst : s.rst with
  | true =>
    rw [served_of_asserted hrst]
    exact ⟨rfl, ⟨rfl, rfl⟩, rfl, rfl, rfl⟩
  | false =>
    rw [served_of_released hrst]
    exact ⟨rfl, ⟨rfl, rfl⟩, rfl, rfl, rfl⟩

/-- Settles O15: the pin resets the block at once, and while it is asserted each kind of arrival finds the reset block. -/
theorem resetPinAbortsAndHolds : Obligations.ResetPinAbortsAndHolds := by
  intro s rest
  refine ⟨fun harrivals => ?asserted, fun hrst => ⟨fun a b harrivals => ?write, fun a harrivals => ?read, fun harrivals => ?quiet,
    fun harrivals => ?release⟩⟩
  case asserted =>
    obtain ⟨hcompleted, hports, hbuf, harr, hreads⟩ := setRst_served_frame s
    rw [harrivals] at harr
    exact ⟨_, step_of_rst harrivals, setRst_asserted_atReset s.served, rfl, hcompleted, hports, hbuf, harr, hreads⟩
  case write =>
    have hdropped := State.hostWrite_of_asserted (s := s.afterSlot.resetBlock) hrst a b
    refine ⟨s.afterSlot.resetBlock, ?_, resetBlock_atReset _, hrst⟩
    rw [step_of_write harrivals, served_of_asserted hrst, hdropped]
  case read =>
    refine ⟨s.afterSlot.resetBlock.hostRead a, ?_, atReset_of_resetBlock_eq rfl, ?_⟩
    · rw [step_of_read harrivals, served_of_asserted hrst]
    · rw [State.hostRead_reads, State.busByte, State.resetBlock_readLoc]
      rfl
  case quiet =>
    exact ⟨_, step_of_sequencerNext_asserted hrst (.inr (by simp [harrivals])), resetBlock_atReset _, hrst⟩
  case release =>
    refine ⟨s.afterSlot.resetBlock.setRst false, ?_, atReset_of_resetBlock_eq rfl, rfl⟩
    rw [step_of_rst harrivals, served_of_asserted hrst]

/-! ### Keys -/

theorem SameKeys.refl (s : State) : SameKeys s s := ⟨rfl, rfl, rfl⟩

/-- A KEYLD whose phases pass found no key loaded (spec/42_key_load.md rules R145, R146). -/
theorem run_keyldRawPhases_ok_keyValid {s : State} {f : Flight} (hrun : runPhases (keyldRawPhases s) Flight.start = .ok f) :
    s.keyValid = false := by
  rw [run_keyldRawPhases] at hrun
  split_ifs at hrun with _ hkey
  simpa using hkey

theorem run_keyldB64Phases_ok_keyValid {s : State} {f : Flight} (hrun : runPhases (keyldB64Phases s) Flight.start = .ok f) :
    s.keyValid = false := by
  rw [run_keyldB64Phases] at hrun
  split_ifs at hrun with _ hkey
  simpa using hkey

/-- With a key loaded KEYLD fails, and no other command but SRST writes the keys. -/
theorem exec_keeps_loaded_key {i : Instr} {s t : State} (hi : i ≠ .srst) (hkey : s.keyValid = true) (hexec : exec i s = .next t) :
    SameKeys s t := by
  rcases exec_ends hi s with ⟨e, hrun, hend⟩ | ⟨f, hrun, hend⟩ <;>
    obtain rfl : _ = t := Host.Outcome.next.inj (hend.symm.trans hexec)
  · exact (raise_endsInError (s.drawn i) e).of_drawn.keys
  · cases i with
    | keyldRaw => exact Bool.noConfusion (hkey.symm.trans (run_keyldRawPhases_ok_keyValid hrun))
    | keyldB64 => exact Bool.noConfusion (hkey.symm.trans (run_keyldB64Phases_ok_keyValid hrun))
    | srst => exact absurd rfl hi
    | _ => exact ⟨rfl, rfl, rfl⟩

/-- A host write never changes the keys: an accept does not, and no input register is a key. -/
theorem hostWrite_sameKeys (s : State) (a : BusAddr) (b : Byte) : SameKeys s (s.hostWrite a b) := by
  unfold State.hostWrite
  split
  case isTrue => exact SameKeys.refl s
  case isFalse => cases locate s.bufMax a <;> exact ⟨rfl, rfl, rfl⟩

/-- Settles O21: of the things a step can do, only asserting the pin and SRST write the keys once one is loaded. -/
theorem loadedKeyIsHeldUntilReset : Obligations.LoadedKeyIsHeldUntilReset := by
  intro s t hstep hkey hrst hpin hsrst
  have hserved : s.served = s.afterSlot := served_of_released hrst
  rcases step_cases hstep with ⟨a, rest, -, rfl⟩ | ⟨a, b, rest, -, rfl⟩ | ⟨level, rest, harrivals, rfl⟩ | ⟨hnext, hmove⟩
  · rw [hserved]
    exact ⟨rfl, rfl, rfl⟩
  · rw [hserved]
    obtain ⟨hsk, hek, hvalid⟩ := hostWrite_sameKeys s.afterSlot a b
    exact ⟨hsk, hek, hvalid⟩
  · have hlevel : level = false := by simpa [harrivals] using hpin
    rw [hserved, hlevel]
    exact ⟨rfl, rfl, rfl⟩
  · rcases hmove with ⟨-, rfl⟩ | ⟨-, hbusy, i, hcmd, hexec⟩ | ⟨-, -, e, -, hexec⟩
    · rw [hserved]
      exact ⟨rfl, rfl, rfl⟩
    · have hi : i ≠ .srst := fun h => hsrst ⟨hnext, hbusy, h ▸ hcmd⟩
      obtain ⟨hsk, hek, hvalid⟩ := exec_keeps_loaded_key (s := s.afterSlot) hi hkey hexec
      exact ⟨hsk, hek, hvalid⟩
    · obtain rfl : _ = t := Host.Outcome.next.inj ((execIllegal_eq s.afterSlot).symm.trans hexec)
      exact ⟨rfl, rfl, rfl⟩

/-! ### One writer for each element -/

/-- What a write that is not an accept can change: the input registers and IBUF, and nothing else (spec/20_memory.md rule R68). -/
theorem writeLoc_changes_inputs (s : State) (b : Byte) {l : Loc} (hl : l ≠ .cmd) :
    ∃ ibuf ilen alen iv ivlen ts,
      s.writeLoc b l = { s with ibuf := ibuf, ilen := ilen, alen := alen, iv := iv, ivlen := ivlen, ts := ts } := by
  cases l with
  | cmd => exact absurd rfl hl
  | _ => exact ⟨_, _, _, _, _, _, rfl⟩

/-- With the pin released a write takes its arrival and is then what `State.hostWrite` says. -/
theorem step_of_write_released {s : State} {a : BusAddr} {b : Byte} {rest : List Arrival} (hrst : s.rst = false)
    (harrivals : s.arrivals = .write a b :: rest) : step s = .next (State.hostWrite { s with arrivals := rest } a b) := by
  have hslot : s.afterSlot = { s with arrivals := rest } := by simp [State.afterSlot, harrivals]
  rw [step_of_write harrivals, served_of_released hrst, hslot]

/-- The address of a place (spec/20_memory.md rules R65, R66); `unmapped` is no place and has none. -/
def Loc.address : Loc → Nat
  | .cmd => 0x00
  | .status => 0x01
  | .err => 0x02
  | .errInfo => 0x03
  | .ilenH => 0x04
  | .ilenL => 0x05
  | .olenH => 0x06
  | .olenL => 0x07
  | .alenH => 0x08
  | .alenL => 0x09
  | .ivlen => 0x0A
  | .ts i => 0x10 + i
  | .tsOut i => 0x18 + i
  | .iv i => 0x20 + i
  | .ibuf i => 0x10000 + i
  | .obuf i => 0x20000 + i
  | .unmapped => 0

theorem address_locateControl {off : Nat} (h : locateControl off ≠ .unmapped) : (locateControl off).address = off := by
  revert h
  fun_cases locateControl off <;> simp [Loc.address]

theorem address_locateReg {off : Nat} (h : locateReg off ≠ .unmapped) : (locateReg off).address = off := by
  revert h
  fun_cases locateReg off with
  | case1 => exact address_locateControl
  | case5 => exact fun h => absurd rfl h
  | _ =>
    intro _
    simp only [Loc.address]
    omega

/-- The address map undone: where an address names a place, it is that place's address. -/
theorem toNat_of_locate {bufMax : Nat} {a : BusAddr} (h : locate bufMax a ≠ .unmapped) :
    a.toNat = (locate bufMax a).address := by
  revert h
  fun_cases locate bufMax a with
  | case1 space off hspace =>
    intro h
    rw [address_locateReg h]
    omega
  | case2 | case4 =>
    intro _
    simp only [Loc.address]
    omega
  | _ => exact fun h => absurd rfl h

/-- CMD stands at address 0 alone (spec/20_memory.md rule R66). -/
theorem locate_ne_cmd {bufMax : Nat} {a : BusAddr} (ha : a.toNat ≠ 0) : locate bufMax a ≠ .cmd := by
  intro h
  have := toNat_of_locate (bufMax := bufMax) (a := a) (by simp [h])
  rw [h] at this
  exact ha this

/-- Two addresses of one place are one address. -/
theorem eq_of_locate_eq {bufMax : Nat} {a a' : BusAddr} (h : locate bufMax a = locate bufMax a')
    (hmapped : locate bufMax a ≠ .unmapped) : a = a' := by
  apply BitVec.eq_of_toNat_eq
  rw [toNat_of_locate hmapped, toNat_of_locate (h ▸ hmapped), h]

/-- A host write away from CMD is dropped, or changes input registers and IBUF. -/
theorem hostWrite_changes_inputs (s : State) {a : BusAddr} (b : Byte) (ha : a.toNat ≠ 0) :
    ∃ ibuf ilen alen iv ivlen ts,
      s.hostWrite a b = { s with ibuf := ibuf, ilen := ilen, alen := alen, iv := iv, ivlen := ivlen, ts := ts } := by
  unfold State.hostWrite
  split
  case isTrue => exact ⟨_, _, _, _, _, _, rfl⟩
  case isFalse => exact writeLoc_changes_inputs s b (locate_ne_cmd ha)

/-- Settles O45: a command's ending keeps the inputs (`EndsWith.sameInputs`), and a write away from CMD changes nothing else
(`hostWrite_changes_inputs`). -/
theorem inputsAndOutputsHaveOneWriter : Obligations.InputsAndOutputsHaveOneWriter := by
  refine ⟨fun i s t hi hexec => (EndsWith.of_exec hi hexec).sameInputs, ?_⟩
  intro s t a b rest harrivals ha hrst hstep
  obtain ⟨ibuf, ilen, alen, iv, ivlen, ts, hwrite⟩ := hostWrite_changes_inputs { s with arrivals := rest } b ha
  rw [step_of_write_released hrst harrivals, hwrite] at hstep
  obtain rfl : _ = t := Host.Outcome.next.inj hstep
  exact ⟨⟨fun _ => rfl, rfl, rfl, rfl⟩, ⟨rfl, rfl, rfl⟩, rfl, rfl, rfl, rfl, rfl⟩

end Sys2Proof.Machine
end

section
/-! SUPPORT. The host's writes as its reads show them (spec/20_memory.md rules R66, R68), and what it reads while a command is in flight
(rule R71). -/

namespace Sys2Proof.Machine

/-! ### The writable places -/

/-- The places at which a write stores its byte: the read/write registers but for CMD, and IBUF (spec/20_memory.md rules R66,
R68). -/
def Loc.stores : Loc → Bool
  | .ilenH | .ilenL | .alenH | .alenL | .ivlen | .ts _ | .iv _ | .ibuf _ => true
  | _ => false

theorem Loc.ne_of_stores {l m : Loc} (hl : l.stores = true) (hm : m.stores = false) : l ≠ m := by
  rintro rfl
  exact Bool.noConfusion (hl.symm.trans hm)

/-- Everywhere else but at CMD a write is dropped. -/
theorem writeLoc_of_not_stores (s : State) (b : Byte) {l : Loc} (hl : l.stores = false) (hcmd : l ≠ .cmd) : s.writeLoc b l = s := by
  cases l with
  | cmd => exact absurd rfl hcmd
  | ilenH | ilenL | alenH | alenL | ivlen | ts | iv | ibuf => cases hl
  | _ => rfl

/-- `HostWritable` lists the addresses of the places that store. -/
theorem hostWritable_iff_stores {bufMax : Nat} {a : BusAddr} (hn : bufMax ≤ 65535) :
    HostWritable bufMax a ↔ (locate bufMax a).stores = true := by
  constructor
  · rintro (hcontrol | ⟨hmin, hmax⟩ | ⟨hmin, hmax⟩ | ⟨hmin, hmax⟩)
    · simp only [List.mem_cons, List.not_mem_nil, or_false] at hcontrol
      rw [locate_reg bufMax (by omega)]
      rcases hcontrol with h | h | h | h | h <;> rw [h] <;> rfl
    · obtain ⟨i, hi⟩ : ∃ i, a.toNat = 0x10 + i := ⟨a.toNat - 0x10, by omega⟩
      rw [locate_reg bufMax (by omega), hi, locateReg_ts (by omega)]
      rfl
    · obtain ⟨i, hi⟩ : ∃ i, a.toNat = 0x20 + i := ⟨a.toNat - 0x20, by omega⟩
      rw [locate_reg bufMax (by omega), hi, locateReg_iv (by omega)]
      rfl
    · rw [(locate_eq_ibuf (i := a.toNat - 0x10000) hn).mpr ⟨by omega, by omega⟩]
      rfl
  · intro hstores
    have haddress := toNat_of_locate (bufMax := bufMax) (a := a) (Loc.ne_of_stores hstores rfl)
    have hibuf : ∀ i, locate bufMax a = .ibuf i → i < bufMax := fun i hi => ((locate_eq_ibuf hn).mp hi).1
    generalize locate bufMax a = l at hstores haddress hibuf
    cases l with
    | ilenH | ilenL | alenH | alenL | ivlen => exact .inl (by simp [haddress, Loc.address])
    | ts i => exact .inr (.inl (by have := i.isLt; simp only [Loc.address] at haddress; omega))
    | iv i => exact .inr (.inr (.inl (by have := i.isLt; simp only [Loc.address] at haddress; omega)))
    | ibuf i => exact .inr (.inr (.inr (by have := hibuf i rfl; simp only [Loc.address] at haddress; omega)))
    | _ => cases hstores

/-! ### Reading after a write -/

@[simp] theorem highByte_fromBytes (hi lo : Byte) : highByte (fromBytes hi lo) = hi :=
  BitVec.extractLsb'_append_eq_left

@[simp] theorem lowByte_fromBytes (hi lo : Byte) : lowByte (fromBytes hi lo) = lo :=
  BitVec.extractLsb'_append_eq_right

/-- A place that stores holds what was last written to it. -/
theorem readLoc_writeLoc_same {s : State} (hw : s.ibuf.wf) (b : Byte) {l : Loc} (hl : l.stores = true) :
    (s.writeLoc b l).readLoc l = b := by
  cases l with
  | ilenH | alenH => exact highByte_fromBytes _ _
  | ilenL | alenL => exact lowByte_fromBytes _ _
  | ivlen => rfl
  | ts i => exact Vector.getElem_set_self i.isLt
  | iv i => exact Vector.getElem_set_self i.isLt
  | ibuf i => exact Memory.read_write_same hw i b
  | _ => cases hl

/-- Every other place holds what it held before: the halves of a length register are two places. -/
theorem readLoc_writeLoc_other (s : State) (b : Byte) {l l' : Loc} (hl : l.stores = true) (hne : l' ≠ l) :
    (s.writeLoc b l).readLoc l' = s.readLoc l' := by
  cases l with
  | ilenH =>
    cases l' with
    | ilenH => exact absurd rfl hne
    | ilenL => exact lowByte_fromBytes _ _
    | _ => rfl
  | ilenL =>
    cases l' with
    | ilenL => exact absurd rfl hne
    | ilenH => exact highByte_fromBytes _ _
    | _ => rfl
  | alenH =>
    cases l' with
    | alenH => exact absurd rfl hne
    | alenL => exact lowByte_fromBytes _ _
    | _ => rfl
  | alenL =>
    cases l' with
    | alenL => exact absurd rfl hne
    | alenH => exact highByte_fromBytes _ _
    | _ => rfl
  | ivlen =>
    cases l' with
    | ivlen => exact absurd rfl hne
    | _ => rfl
  | ts i =>
    cases l' with
    | ts j => exact Vector.getElem_set_ne i.isLt j.isLt fun h => hne (congrArg Loc.ts (Fin.ext h.symm))
    | _ => rfl
  | iv i =>
    cases l' with
    | iv j => exact Vector.getElem_set_ne i.isLt j.isLt fun h => hne (congrArg Loc.iv (Fin.ext h.symm))
    | _ => rfl
  | ibuf i =>
    cases l' with
    | ibuf j => exact Memory.read_write_other s.ibuf (fun h => hne (congrArg Loc.ibuf h.symm)) b
    | _ => rfl
  | _ => cases hl

/-- What a write does to IBUF itself: it stays canonical, and its other bytes, read past BUF_MAX too, stay. -/
theorem writeLoc_ibuf {s : State} (hw : s.ibuf.wf) (b : Byte) {l : Loc} (hl : l.stores = true) :
    (s.writeLoc b l).ibuf.wf ∧ ∀ j, 0x10000 + j ≠ l.address → (s.writeLoc b l).ibuf.read j = s.ibuf.read j := by
  cases l with
  | ibuf i =>
    refine ⟨Memory.write_wf hw i b, fun j hj => Memory.read_write_other s.ibuf ?_ b⟩
    rintro rfl
    exact hj rfl
  | ilenH | ilenL | alenH | alenL | ivlen | ts | iv => exact ⟨hw, fun _ _ => rfl⟩
  | _ => cases hl

theorem State.hostWrite_of_idle {s : State} (hidle : s.busy = false) (hrst : s.rst = false) (a : BusAddr) (b : Byte) :
    s.hostWrite a b = s.writeLoc b (locate s.bufMax a) := by
  simp [State.hostWrite, hidle, hrst]

/-- Settles O11: the address names a place that stores, and no other address names it. -/
theorem hostWriteStoresOrIsDropped : Obligations.HostWriteStoresOrIsDropped := by
  intro s a b rest hparam hw hrst hidle harrivals
  obtain ⟨-, hn⟩ := hparam
  have hstep : step s = .next (State.writeLoc { s with arrivals := rest } b (locate s.bufMax a)) := by
    rw [step_of_write_released hrst harrivals, State.hostWrite_of_idle (s := { s with arrivals := rest }) hidle hrst]
  refine ⟨fun hwritable => ?stored, fun hnot ha => ?dropped⟩
  case stored =>
    have hstores := (hostWritable_iff_stores hn).mp hwritable
    have hmapped : locate s.bufMax a ≠ .unmapped := Loc.ne_of_stores hstores rfl
    have hcmd : locate s.bufMax a ≠ .cmd := Loc.ne_of_stores hstores rfl
    have hsame := readLoc_writeLoc_same (s := { s with arrivals := rest }) hw b hstores
    have hother : ∀ a', a' ≠ a → _ := fun a' ha' =>
      readLoc_writeLoc_other { s with arrivals := rest } b hstores (l' := locate s.bufMax a') fun h =>
        ha' (eq_of_locate_eq h.symm hmapped).symm
    obtain ⟨hwf, hbytes⟩ := writeLoc_ibuf (s := { s with arrivals := rest }) hw b hstores
    rw [← toNat_of_locate hmapped] at hbytes
    obtain ⟨ibuf, ilen, alen, iv, ivlen, ts, hframe⟩ := writeLoc_changes_inputs { s with arrivals := rest } b hcmd
    rw [hframe] at hstep hsame hother hwf hbytes
    exact ⟨_, hstep, hsame, hother, hwf, hbytes, ⟨rfl, rfl, rfl⟩, ⟨fun _ => rfl, rfl, rfl, rfl⟩, ⟨rfl, rfl⟩, rfl, rfl, rfl, rfl, rfl,
      rfl, rfl, rfl, rfl⟩
  case dropped =>
    have hnotStored : (locate s.bufMax a).stores = false := by
      rw [← Bool.not_eq_true, ← hostWritable_iff_stores hn]
      exact hnot
    rw [hstep, writeLoc_of_not_stores _ b hnotStored (locate_ne_cmd ha)]

/-! ### The bus while a command is in flight -/

/-- Settles O9: a command in flight has cleared results (`State.Inv.cleared_of_busy`), and its write is dropped. -/
theorem busWhileBusyDropsWritesAndReadsCleared : Obligations.BusWhileBusyDropsWritesAndReadsCleared := by
  intro s hinv hbusy
  obtain ⟨hdone, herr, hinfo, holen, hobuf, hts, hhmac, heq⟩ := hinv.cleared_of_busy hbusy
  obtain ⟨-, hn⟩ := hinv.param
  have hrst := hinv.released_of_busy hbusy
  have herrf : s.errf = false := by simp [State.errf, herr, ErrCode.code]
  refine ⟨fun a b rest harrivals => ?write, s.busByte_control 0x00 (by decide), ?status, ?err, ?errInfo, ?olenH, ?olenL,
    fun i hi => ?tsOut, fun i hi => ?obuf⟩
  case write =>
    rw [step_of_write_released hrst harrivals, State.hostWrite_of_busy (s := { s with arrivals := rest }) hbusy]
  case status =>
    have hread : s.busByte 0x00001 = s.statusByte := s.busByte_control 0x01 (by decide)
    rw [hread, State.statusByte_toNat, hbusy, hdone, herrf, hhmac, heq]
    simp
  case err => exact (s.busByte_control 0x02 (by decide)).trans (congrArg ErrCode.code herr)
  case errInfo => exact (s.busByte_control 0x03 (by decide)).trans hinfo
  case olenH => exact (s.busByte_control 0x06 (by decide)).trans (congrArg highByte holen)
  case olenL => exact (s.busByte_control 0x07 (by decide)).trans (congrArg lowByte holen)
  case tsOut => rw [s.busByte_tsOut hi, hts, zeroVec_getElem]
  case obuf =>
    rw [State.busByte_obuf hn hi, hobuf]
    rfl

end Sys2Proof.Machine
end

section
/-! SUPPORT. The encoding's two directions and the decoder's refusals (spec/30_encoding.md rules R92, R94, R95). -/

namespace Sys2Proof

/-- Settles O1: the decoder answers an instruction exactly on the byte that encodes it. -/
theorem decodeAndEncodeAgree : Obligations.DecodeAndEncodeAgree :=
  ⟨fun _ _ => decode_eq_ok_iff.mpr rfl, fun _ _ h => (decode_eq_ok_iff.mp h).symm⟩

/-- Settles O4: fourteen bytes, computed. -/
theorem sampleCommandBytesDecode : Obligations.SampleCommandBytesDecode := by
  unfold Obligations.SampleCommandBytesDecode
  decide

/-! ### Refusals -/

/-- The first thing wrong with the fields of a byte, in the order of spec/30_encoding.md rule R95. -/
theorem decodeFormat_error_iff (f : FormatC) (e : Illegal) :
    decodeFormat f = .error e ↔
      match e with
      | .zNonzero => f.z ≠ 0#2
      | .opReserved => f.z = 0#2 ∧ f.opLegal = false
      | .flagSet => f.z = 0#2 ∧ f.opLegal = true ∧ f.flagsLegal = false := by
  fun_cases decodeFormat f <;> cases e <;> simp_all [FormatC.opLegal, FormatC.flagsLegal]
  -- Left are the OPs that allow no flag, with one of the two set.
  all_goals
    intro hf0
    simpa [hf0] using ‹f.f0 = true ∨ f.f1 = true›

theorem decodeFormat_refuses_iff (f : FormatC) : (∃ e, decodeFormat f = .error e) ↔ f.wellFormed = false := by
  simp only [decodeFormat_error_iff, FormatC.wellFormed]
  constructor
  · rintro ⟨e, he⟩
    cases e <;> simp_all
  · intro hbad
    by_cases hz : f.z = 0#2
    · cases hop : f.opLegal with
      | false => exact ⟨.opReserved, hz, rfl⟩
      | true => exact ⟨.flagSet, hz, rfl, by simpa [hz, hop] using hbad⟩
    · exact ⟨.zNonzero, hz⟩

/-- Settles O3: each reason is `decodeFormat_error_iff` at the byte's fields. -/
theorem decoderRefusesIllFormedBytesByName : Obligations.DecoderRefusesIllFormedBytesByName := fun c =>
  ⟨decodeFormat_refuses_iff (formatOf c), decodeFormat_error_iff (formatOf c) .zNonzero,
    decodeFormat_error_iff (formatOf c) .opReserved, decodeFormat_error_iff (formatOf c) .flagSet⟩

end Sys2Proof
end

section
/-! SUPPORT. The datapath's laws (spec/41_cbc_hmac_datapath.md rules R126, R128, R130; spec/46_ct_compare.md rules R195, R197), and how
much of its work a command asks of the ports (spec/70_reset_and_hazards.md rule R296). -/

namespace Sys2Proof.Machine

/-! ### Padding, CBC and the comparator -/

/-- What unpads well ends in as many equal bytes as the last of them says (spec/41 rule R126). -/
theorem eq_append_rep_of_pkcs7Unpad {x p : Bytes} (hx : 16 ≤ x.length) (h : pkcs7Unpad x = some p) :
    ∃ k, 1 ≤ k ∧ k ≤ 16 ∧ x = p ++ rep (BitVec.ofNat 8 k) k := by
  simp only [pkcs7Unpad] at h
  split at h
  · cases h
  · next hk =>
    split at h
    · cases h
    · next hall =>
      injection h with h
      generalize x.getD (x.length - 1) 0 = last at hk hall h
      have hequal : ∀ b ∈ slice x (x.length - last.toNat) x.length, b = last := by simpa using hall
      have hpadding : slice x (x.length - last.toNat) x.length = rep last last.toNat :=
        List.eq_replicate_iff.mpr ⟨by simp; omega, hequal⟩
      refine ⟨last.toNat, by omega, by omega, ?_⟩
      have hwhole : slice x 0 x.length = x := by simp [slice]
      rw [BitVec.ofNat_toNat, BitVec.setWidth_eq, ← hpadding, ← h, slice_append_slice x (Nat.zero_le _) (Nat.sub_le _ _), hwhole]

/-- Settles O38: padding undone is `pkcs7Unpad_pkcs7Pad`; in general the two directions are `eq_append_rep_of_pkcs7Unpad` and
`pkcs7Unpad_append_rep`. -/
theorem unpadChecksAllPaddingBytes : Obligations.UnpadChecksAllPaddingBytes := by
  refine ⟨pkcs7Unpad_pkcs7Pad, fun x p hx => ⟨eq_append_rep_of_pkcs7Unpad hx, ?_⟩⟩
  rintro ⟨k, hmin, hmax, rfl⟩
  exact pkcs7Unpad_append_rep hmin hmax

/-- Settles O40: the laws of the chain and of the payload. -/
theorem cbcDecryptionInvertsEncryption : Obligations.CbcDecryptionInvertsEncryption := fun _ _ hk hiv =>
  ⟨fun _ hx => cbcDecrypt_cbcEncrypt hk hiv hx, decryptPayload_encryptPayload hk hiv⟩

/-- Settles O42: each clause is read off `ctEq_eq_true_iff`. -/
theorem comparatorIsSymmetricEquality : Obligations.ComparatorIsSymmetricEquality := by
  refine ⟨fun a b => ?symmetric, fun a => ctEq_eq_true_iff.mpr rfl, fun a b hlen => ?unequal, fun a b => ctEq_eq_true_iff⟩
  case symmetric => rw [Bool.eq_iff_iff, ctEq_eq_true_iff, ctEq_eq_true_iff, eq_comm]
  case unequal => simp [ctEq, hlen]

/-! ### Counting requests -/

@[simp] theorem aesCount_append (l m : List PortRequest) : aesCount (l ++ m) = aesCount l + aesCount m := by
  induction l with
  | nil => simp [aesCount]
  | cons r l ih =>
    cases r <;> simp only [List.cons_append, aesCount, ih]
    omega

@[simp] theorem shaBlocks_append (l m : List PortRequest) : shaBlocks (l ++ m) = shaBlocks l + shaBlocks m := by
  induction l with
  | nil => simp [shaBlocks]
  | cons r l ih =>
    cases r <;> simp only [List.cons_append, shaBlocks, ih]
    omega

/-- What CBC encryption asks: one AES block for each block, and no hash. -/
theorem cbcEncAsks_counts (k c : Bytes) (xs : List Bytes) :
    aesCount (cbcEncAsks k c xs) = xs.length ∧ shaBlocks (cbcEncAsks k c xs) = 0 := by
  induction xs generalizing c with
  | nil => exact ⟨rfl, rfl⟩
  | cons x xs ih =>
    obtain ⟨haes, hsha⟩ := ih (aesEnc k (xorb x c))
    exact ⟨by simp [cbcEncAsks, aesCount, haes], by simp [cbcEncAsks, shaBlocks, hsha]⟩

theorem encryptAsks_counts (ek iv p : Bytes) :
    aesCount (encryptAsks ek iv p) = p.length / 16 + 1 ∧ shaBlocks (encryptAsks ek iv p) = 0 := by
  obtain ⟨haes, hsha⟩ := cbcEncAsks_counts ek iv (blocks16 (pkcs7Pad p))
  exact ⟨by rw [encryptAsks, haes, blocks16_length, pkcs7Pad_length]; omega, hsha⟩

theorem decryptAsks_counts (ek c : Bytes) :
    aesCount (decryptAsks ek c) = c.length / 16 ∧ shaBlocks (decryptAsks ek c) = 0 := by
  have hcounts : ∀ bs : List Bytes, aesCount (bs.map fun b => .aes .decrypt ek b) = bs.length
      ∧ shaBlocks (bs.map fun b => .aes .decrypt ek b) = 0 := by
    intro bs
    induction bs with
    | nil => exact ⟨rfl, rfl⟩
    | cons b bs ih => exact ⟨congrArg (· + 1) ih.1, ih.2⟩
  obtain ⟨haes, hsha⟩ := hcounts (blocks16 c)
  exact ⟨haes.trans (blocks16_length c), hsha⟩

theorem shaPad_length (m : Bytes) : (shaPad m).length = m.length + 9 + shaZeros m.length := by
  simp [shaPad]
  omega

/-- A message of `n` bytes takes at most `(n + 72) div 64` block compressions (spec/48 rule R226). -/
theorem shaPad_blocks_le (m : Bytes) : (shaPad m).length / 64 ≤ (m.length + 72) / 64 := by
  rw [shaPad_length, shaZeros]
  omega

/-- What one tag asks: no AES block; the inner hash runs over the key block and the body, the outer one over 96 bytes. -/
theorem tagAsks_counts {sk : Bytes} (hsk : sk.length = 16) (body : Bytes) :
    aesCount (tagAsks sk body) = 0 ∧ shaBlocks (tagAsks sk body) ≤ (body.length + 136) / 64 + 2 := by
  have hinner : (hmacInnerMsg sk body).length = 64 + body.length := by simp [hmacInnerMsg, hsk]
  have houter : (hmacOuterMsg sk (sha256 (hmacInnerMsg sk body))).length = 96 := by simp [hmacOuterMsg, hsk]
  have h1 := shaPad_blocks_le (hmacInnerMsg sk body)
  have h2 := shaPad_blocks_le (hmacOuterMsg sk (sha256 (hmacInnerMsg sk body)))
  refine ⟨rfl, ?_⟩
  simp only [tagAsks, shaBlocks]
  rw [hinner] at h1
  rw [houter] at h2
  omega

/-! ### The work of a command -/

/-- What a command asked of the ports, its phases having given this result. -/
def askedOf : Except Raise Flight → List PortRequest
  | .error e => e.asked
  | .ok f => f.asked

theorem EndsWith.requests {s t : State} {r : Except Raise Flight} (h : EndsWith s t r) : t.requests = s.requests ++ askedOf r := by
  cases r with
  | error e => exact h.2
  | ok f => exact h.2

/-- The bounds of spec/70_reset_and_hazards.md rule R296. -/
structure State.WorkBounded (s : State) (asked : List PortRequest) : Prop where
  aes : aesCount asked ≤ s.ilen.toNat / 16 + 1
  sha : shaBlocks asked ≤ (s.ilen.toNat + 25 + 64 + 9) / 64 + 4

theorem workBounded_nil (s : State) : s.WorkBounded [] := ⟨Nat.zero_le _, Nat.zero_le _⟩

/-- A command that ends early has asked a part of what it would have asked, and that is no more work. -/
theorem State.WorkBounded.of_prefix {s : State} {l m : List PortRequest} (hm : s.WorkBounded m) (h : l <+: m) : s.WorkBounded l := by
  obtain ⟨rest, rfl⟩ := h
  obtain ⟨haes, hsha⟩ := hm
  rw [aesCount_append] at haes
  rw [shaBlocks_append] at hsha
  exact ⟨by omega, by omega⟩

theorem askedOf_encPhases_prefix (ivsrc tssrc : Bool) (s : State) :
    askedOf (runPhases (encPhases ivsrc tssrc s) Flight.start) <+: (encFlight ivsrc tssrc s).asked := by
  have hasked : (encFlight ivsrc tssrc s).asked = encAskedFirst ivsrc tssrc
      ++ (encryptAsks s.ek.toList (if ivsrc then s.iv else s.draws.rngBytes).toList s.input
        ++ tagAsks s.sk.toList (encFlight ivsrc tssrc s).body) := List.append_assoc _ _ _
  rw [run_encPhases]
  generalize (if ivsrc then s.iv else s.draws.rngBytes).toList = iv at hasked ⊢
  generalize (if ivsrc then s.ivlen else s.draws.rngLen) = ivlen
  split_ifs
  iterate 3 · exact List.nil_prefix
  iterate 2 · exact ⟨_, hasked.symm⟩
  · exact ⟨_, (List.append_assoc _ _ _).trans hasked.symm⟩
  · exact List.prefix_rfl

theorem encFlight_workBounded (ivsrc tssrc : Bool) (s : State) : s.WorkBounded (encFlight ivsrc tssrc s).asked := by
  have hbody : (encFlight ivsrc tssrc s).body.length = 25 + 16 * (s.ilen.toNat / 16 + 1) := by
    rw [encFlight, tokenBody_length, encryptPayload_length (by simp), State.input_length]
    simp
  obtain ⟨haes, hsha⟩ := encryptAsks_counts s.ek.toList (encVector ivsrc s) s.input
  obtain ⟨htagAes, htagSha⟩ := tagAsks_counts (sk := s.sk.toList) (by simp) (encFlight ivsrc tssrc s).body
  rw [hbody] at htagSha
  rw [State.input_length] at haes
  have hfirst : aesCount (encAskedFirst ivsrc tssrc) = 0 ∧ shaBlocks (encAskedFirst ivsrc tssrc) = 0 := by
    cases ivsrc <;> cases tssrc <;> exact ⟨rfl, rfl⟩
  have hasked : (encFlight ivsrc tssrc s).asked = encAskedFirst ivsrc tssrc
      ++ encryptAsks s.ek.toList (encVector ivsrc s) s.input ++ tagAsks s.sk.toList (encFlight ivsrc tssrc s).body :=
    encFlight_asked ivsrc tssrc s
  rw [hasked]
  constructor
  · simp only [aesCount_append]
    omega
  · simp only [shaBlocks_append]
    omega

/-- DEC asks for a part of what opening its token asks for, and for nothing where there is no token. -/
theorem askedOf_decPhases_prefix (s : State) :
    askedOf (runPhases (decPhases s) Flight.start) = [] ∨ ∃ tok, b64UrlDecode s.input = some tok
      ∧ askedOf (runPhases (decPhases s) Flight.start)
        <+: decryptAsks s.ek.toList (splitToken tok).ct ++ tagAsks s.sk.toList (splitToken tok).body := by
  rw [run_decPhases]
  cases htok : b64UrlDecode s.input with
  | none =>
    left
    dsimp only
    split_ifs <;> rfl
  | some tok =>
    right
    refine ⟨tok, rfl, ?_⟩
    cases hp : decryptPayload s.ek.toList (toVec 16 (splitToken tok).iv).toList (splitToken tok).ct with
    | none =>
      simp only [hp]
      split_ifs
      iterate 5 · exact List.nil_prefix
      · exact List.prefix_append _ _
    | some p =>
      simp only [hp]
      split_ifs
      iterate 5 · exact List.nil_prefix
      · exact List.prefix_append _ _
      · exact List.prefix_rfl

theorem opening_workBounded {s : State} {tok : Bytes} (htok : b64UrlDecode s.input = some tok) :
    s.WorkBounded (decryptAsks s.ek.toList (splitToken tok).ct ++ tagAsks s.sk.toList (splitToken tok).body) := by
  have hlen : tok.length ≤ 3 * s.ilen.toNat / 4 := by simpa using b64UrlDecode_length htok
  have hct : (splitToken tok).ct.length ≤ tok.length := by simp [splitToken]
  have hbody : (splitToken tok).body.length ≤ tok.length := by simp [splitToken]
  obtain ⟨haes, hsha⟩ := decryptAsks_counts s.ek.toList (splitToken tok).ct
  obtain ⟨htagAes, htagSha⟩ := tagAsks_counts (sk := s.sk.toList) (by simp) (splitToken tok).body
  constructor
  · rw [aesCount_append]
    omega
  · rw [shaBlocks_append]
    omega

/-- The commands without a port ask nothing. -/
theorem askedOf_eq_nil {i : Instr} (henc : ∀ ivsrc tssrc, i ≠ .enc ivsrc tssrc) (hdec : i ≠ .dec) (s : State) :
    askedOf (runPhases (workOf i s) Flight.start) = [] := by
  cases i with
  | keyldRaw => rw [workOf, run_keyldRawPhases]; split_ifs <;> rfl
  | keyldB64 => rw [workOf, run_keyldB64Phases]; cases b64UrlDecode s.input <;> dsimp only <;> split_ifs <;> rfl
  | enc ivsrc tssrc => exact absurd rfl (henc ivsrc tssrc)
  | dec => exact absurd rfl hdec
  | b64e => rw [workOf, run_b64ePhases]; split_ifs <;> rfl
  | b64d => rw [workOf, run_b64dPhases]; cases b64UrlDecode s.input <;> dsimp only <;> split_ifs <;> rfl
  | cteq => rw [workOf, run_cteqPhases]; split_ifs <;> rfl
  | srst => rfl

theorem run_workOf_workBounded (i : Instr) (s : State) : s.WorkBounded (askedOf (runPhases (workOf i s) Flight.start)) := by
  cases i with
  | enc ivsrc tssrc => exact (encFlight_workBounded ivsrc tssrc s).of_prefix (askedOf_encPhases_prefix ivsrc tssrc s)
  | dec =>
    rcases askedOf_decPhases_prefix s with hnone | ⟨tok, htok, hprefix⟩
    · exact hnone ▸ workBounded_nil s
    · exact (opening_workBounded htok).of_prefix hprefix
  | _ =>
    rw [askedOf_eq_nil (by simp) (by simp)]
    exact workBounded_nil s

/-- Settles O49: what was asked is fixed by how the phases ended, and every ending stays within the bounds
(`run_workOf_workBounded`). -/
theorem cryptoWorkIsLinearInInput : Obligations.CryptoWorkIsLinearInInput := by
  intro i s t hexec
  by_cases hi : i = .srst
  · subst hi
    obtain rfl : _ = t := Host.Outcome.next.inj ((exec_srst s).symm.trans hexec)
    exact ⟨[], (List.append_nil _).symm, (workBounded_nil s).aes, (workBounded_nil s).sha⟩
  · obtain ⟨haes, hsha⟩ := run_workOf_workBounded i s
    exact ⟨_, (EndsWith.of_exec hi hexec).requests, haes, hsha⟩

end Sys2Proof.Machine
end
